-- ==== Sys2Proof/Word.lean ====
section
/-! DEFINITION. The machine word ("platter"), the byte of the I/O channels, and the plainest arithmetic on words
(spec/00_scope.md R5, R8). -/

namespace Sys2Proof

/-- A platter: 32 bits, unsigned (00_scope.md R5, R8). Bit 0 is the least significant bit (R7). -/
abbrev Word := BitVec 32

/-- One byte of an I/O channel or of a program image, 0 to 255 (00_scope.md R5). -/
abbrev Byte := BitVec 8

/-- `u32(v) = v mod 2^32` (00_scope.md R8). -/
def u32 (v : Nat) : Word := BitVec.ofNat 32 v

end Sys2Proof
end

