-- ==== Sys2Proof/Syntax.lean ====
section
/-! DEFINITION. The decoded form of an instruction (30_encoding.md R70): one constructor per opcode 0 to 13, and one
for the two unassigned opcodes, whose two rows of the opcode table bear one name. -/

namespace Sys2Proof

/-- A 3-bit register selector: the number of a general register, 0 to 7 (30_encoding.md R60, 10_state.md R18). -/
abbrev RegSel := Fin 8

/-- The decoder's output (30_encoding.md R70, R65). A field an opcode does not use is no field here (R67). -/
inductive Instr where
  /-- Opcode 0, Conditional Move (41_move.md R83). -/
  | cmov (a b c : RegSel)
  /-- Opcode 1, Array Index (42_arrays.md R86). -/
  | index (a b c : RegSel)
  /-- Opcode 2, Array Amendment (42_arrays.md R87). -/
  | amend (a b c : RegSel)
  /-- Opcode 3, Addition (43_alu.md R90). -/
  | add (a b c : RegSel)
  /-- Opcode 4, Multiplication (43_alu.md R91). -/
  | mul (a b c : RegSel)
  /-- Opcode 5, Division (43_alu.md R92). -/
  | div (a b c : RegSel)
  /-- Opcode 6, Not-And (43_alu.md R93). -/
  | nand (a b c : RegSel)
  /-- Opcode 7, Halt (44_control.md R95). -/
  | halt
  /-- Opcode 8, Allocation (42_arrays.md R88). -/
  | alloc (b c : RegSel)
  /-- Opcode 9, Abandonment (42_arrays.md R89). -/
  | abandon (c : RegSel)
  /-- Opcode 10, Output (45_io.md R99). -/
  | output (c : RegSel)
  /-- Opcode 11, Input (45_io.md R100). -/
  | input (c : RegSel)
  /-- Opcode 12, Load Program (44_control.md R96). -/
  | loadprog (b c : RegSel)
  /-- Opcode 13, Orthography: a 25-bit unsigned immediate (41_move.md R84, 30_encoding.md R61). -/
  | ortho (a : RegSel) (imm : BitVec 25)
  /-- Opcodes 14 and 15: no instruction; InvalidInstruction at dispatch (30_encoding.md R66). -/
  | invalid (op : Fin 16)
  deriving DecidableEq, Repr

end Sys2Proof
end

