-- ==== Sys2Proof/WellFormed.lean ====
section
/-! DEFINITION. Which terms of `Instr` are instructions. The selectors and the immediate are bounded by their types;
the one check left is that `invalid` carries an unassigned opcode. -/

namespace Sys2Proof

/-- The opcodes that have no handler: 14 and 15 (30_encoding.md R66). -/
def unassigned (op : Fin 16) : Bool := op == 14 || op == 15

/-- A term is well formed when an `invalid` carries an unassigned opcode (30_encoding.md R70: "op 14, 15"). -/
def Instr.wf : Instr → Bool
  | .cmov _ _ _ => true
  | .index _ _ _ => true
  | .amend _ _ _ => true
  | .add _ _ _ => true
  | .mul _ _ _ => true
  | .div _ _ _ => true
  | .nand _ _ _ => true
  | .halt => true
  | .alloc _ _ => true
  | .abandon _ => true
  | .output _ => true
  | .input _ => true
  | .loadprog _ _ => true
  | .ortho _ _ => true
  | .invalid op => unassigned op

end Sys2Proof
end

