-- ==== Sys2Proof/Decode.lean ====
section
/-! DEFINITION. The decoder (30_encoding.md R58 to R67), total on all 2^32 words, and after it the encoder (R69). The
decoder takes its fields by bit position; the encoder is the spec's sum of scaled fields. The decoder refuses no word:
one whose opcode is 14 or 15 decodes to `invalid`, whose verdict comes at dispatch (R64, R66). -/

namespace Sys2Proof

/-- The opcode, bits [31:28] (30_encoding.md R59). -/
def opcodeField (w : Word) : BitVec 4 := w.extractLsb' 28 4

/-- Format S selector `a`, bits [8:6] (30_encoding.md R60). -/
def fieldA (w : Word) : RegSel := (w.extractLsb' 6 3).toFin

/-- Format S selector `b`, bits [5:3] (30_encoding.md R60). -/
def fieldB (w : Word) : RegSel := (w.extractLsb' 3 3).toFin

/-- Format S selector `c`, bits [2:0] (30_encoding.md R60). -/
def fieldC (w : Word) : RegSel := (w.extractLsb' 0 3).toFin

/-- Format I selector `a`, bits [27:25] (30_encoding.md R61). -/
def fieldOrthoA (w : Word) : RegSel := (w.extractLsb' 25 3).toFin

/-- Format I immediate, bits [24:0] (30_encoding.md R61). -/
def fieldImm (w : Word) : BitVec 25 := w.extractLsb' 0 25

/-- The decoder: the opcode map of 30_encoding.md R65, total (R64), bits an opcode does not read ignored (R67).
Whatever the map does not assign is `invalid` (R66). -/
def decode (w : Word) : Instr :=
  match (opcodeField w).toNat with
  | 0 => .cmov (fieldA w) (fieldB w) (fieldC w)
  | 1 => .index (fieldA w) (fieldB w) (fieldC w)
  | 2 => .amend (fieldA w) (fieldB w) (fieldC w)
  | 3 => .add (fieldA w) (fieldB w) (fieldC w)
  | 4 => .mul (fieldA w) (fieldB w) (fieldC w)
  | 5 => .div (fieldA w) (fieldB w) (fieldC w)
  | 6 => .nand (fieldA w) (fieldB w) (fieldC w)
  | 7 => .halt
  | 8 => .alloc (fieldB w) (fieldC w)
  | 9 => .abandon (fieldC w)
  | 10 => .output (fieldC w)
  | 11 => .input (fieldC w)
  | 12 => .loadprog (fieldB w) (fieldC w)
  | 13 => .ortho (fieldOrthoA w) (fieldImm w)
  | _ => .invalid (opcodeField w).toFin

/-- `encS` (30_encoding.md R69): a word of format S with its unused bits 0. -/
def encS (op : Nat) (a b c : RegSel) : Word :=
  u32 (op * 2 ^ 28 + a.val * 2 ^ 6 + b.val * 2 ^ 3 + c.val)

/-- `encI` (30_encoding.md R69): a word of format I. -/
def encI (a : RegSel) (imm : BitVec 25) : Word :=
  u32 (13 * 2 ^ 28 + a.val * 2 ^ 25 + imm.toNat)

/-- The encoder: the canonical word of each instruction, unused fields 0 (30_encoding.md R69, R65). The word of an
`invalid` is its opcode over 28 zero bits (the table's `match` of rows 14 and 15). -/
def encode : Instr → Word
  | .cmov a b c => encS 0 a b c
  | .index a b c => encS 1 a b c
  | .amend a b c => encS 2 a b c
  | .add a b c => encS 3 a b c
  | .mul a b c => encS 4 a b c
  | .div a b c => encS 5 a b c
  | .nand a b c => encS 6 a b c
  | .halt => encS 7 0 0 0
  | .alloc b c => encS 8 0 b c
  | .abandon c => encS 9 0 0 c
  | .output c => encS 10 0 0 c
  | .input c => encS 11 0 0 c
  | .loadprog b c => encS 12 0 b c
  | .ortho a imm => encI a imm
  | .invalid op => encS op.val 0 0 0

/-- What the decoder reads from an instruction whose bits are `w`, numbered as the opcode table numbers them (one
32-bit word, bit 0 the least significant, 30_encoding.md R58, 00_scope.md R7); bits at and above `nbits` are 0. No
instruction is longer than one word. -/
def decodeTableWord (nbits w : Nat) : Option Instr :=
  if nbits ≤ 32 then some (decode (u32 (w % 2 ^ nbits))) else none

end Sys2Proof
end

