-- ==== Sys2Proof/Config.lean ====
section
/-! DEFINITION. What is fixed for one UM core and is not state: the parameters the spec fixes (00_scope.md R5) and the
one it leaves open (R6). -/

namespace Sys2Proof.Config

/-- `MAX_LIVE_WORDS` (00_scope.md R6, OPEN, decision D10): how many words the memory controller can hold at once.
It has no body: nothing can be proved about its value. DESIGN CHOICE, log entry 1: safe. -/
opaque maxLiveWords : Nat

/-- The largest identifier that can be issued: 2^32 - 1 (10_state.md R24). -/
def maxIdentifier : Nat := 2 ^ 32 - 1

/-- The largest length of the program array, in words: 2^32 - 1 (00_scope.md R5, decision D3). -/
def maxProgramWords : Nat := 2 ^ 32 - 1

/-- The first identifier issued: 1 (00_scope.md R5). -/
def firstIdentifier : Nat := 1

/-- The largest value Output sends: 255 (00_scope.md R5, 45_io.md R99). -/
def maxOutput : Nat := 255

end Sys2Proof.Config
end

