-- ==== Sys2Proof/Machine/State.lean ====
section
/-! DEFINITION. The state of the UM core as plain data (10_state.md R17), the reasons a step can stop, and the state
after reset (R35). What is done to it stands in Ops.lean. -/

namespace Sys2Proof.Machine

/-- The failure kinds: the source's seven (60_exceptions.md R101) and the spec's two model faults (R107). They are
values of the machine's own status, not `Fault`s of the model: raising one is a state change (R108). -/
inductive Failure where
  /-- 1: a word whose opcode is 14 or 15 (R103). -/
  | invalidInstruction
  /-- 2: Array Index or Amendment of an inactive identifier or out of range (R104). -/
  | invalidArrayAccess
  /-- 3: Abandonment of identifier 0 or of an inactive one (R105). -/
  | invalidArrayAbandonment
  /-- 4: Division by 0 (R106). -/
  | divideByZero
  /-- 5: Load Program from an inactive identifier (R106). -/
  | invalidLoad
  /-- 6: Output of a value above 255 (R106). -/
  | invalidOutput
  /-- 7: fetch at or past the end of the program array (R102). -/
  | executionFingerOutOfBounds
  /-- 8: Allocation after identifier 2^32 - 1 has been issued (R107, decision D9). -/
  | identifierExhausted
  /-- 9: Allocation past `MAX_LIVE_WORDS` (R107, decision D10). -/
  | resourceExhausted
  deriving DecidableEq, Repr

/-- The run status (10_state.md R26). `halted` and `failed` are terminal. -/
inductive Status where
  | running
  | halted
  | failed (kind : Failure)
  deriving DecidableEq, Repr

/-- One response of the input channel (45_io.md R98). -/
inductive InputResponse where
  | byte (v : Byte)
  | endOfStream
  | readError
  deriving DecidableEq, Repr

/-- A sequence of 32-bit words of a fixed length (10_state.md R21, R22). `cells` lists the words that are not 0, by
rising index; a word not listed is 0, as 20_memory.md R46 fills a new array (log entry 8). -/
structure WordArray where
  /-- The length in words. -/
  length : Nat
  /-- The nonzero words, by index. -/
  cells : List (Nat × Word)
  deriving DecidableEq, Repr

/-- All of memory: the program array `A0` (10_state.md R21) and the heap `H` (R22), whose entries stand by rising
identifier. An identifier is active exactly when it is listed (R23). -/
structure Memory where
  /-- `A0`, addressed as identifier 0. -/
  program : WordArray
  /-- `H`, by identifier. -/
  heap : List (Nat × WordArray)
  deriving DecidableEq, Repr

/-- The whole state of the UM core (10_state.md R17), with the two byte channels of R35. -/
structure State where
  /-- `x[0..7]`, the register file (10_state.md R18). -/
  regs : Vector Word 8
  /-- The execution finger, an index into the program array (10_state.md R19). -/
  pc : Word
  /-- `A0` and `H` (10_state.md R21, R22). -/
  mem : Memory
  /-- The identifier allocator, 1 to 2^32 (10_state.md R24). -/
  nextId : Nat
  /-- The run status (10_state.md R26). -/
  status : Status
  /-- The input channel: the responses not yet read, in the order requests take them (45_io.md R98, log entry 2). -/
  input : List InputResponse
  /-- The output channel: the bytes sent so far, oldest first (45_io.md R97, log entry 4). -/
  output : List Byte
  deriving DecidableEq, Repr

/-- Why the model stops with a fault. -/
inductive Fault where
  /-- Raised by `step` alone, when the status is `halted` or `failed`: such a core has no step (40_cycle.md R74,
  93_implementation_defined.md I9 "stuck"). Safe: the model has no run where the spec has none (log entry 5). -/
  | notRunning
  deriving DecidableEq, Repr

/-- Why the model refuses an instruction. -/
inductive Refusal where
  /-- An instruction without a meaning, rejected by its name in `exec`. Safe. No arm of `exec` answers it: every
  instruction of the opcode table has its meaning. -/
  | notModelled (mnemonic : String)
  deriving DecidableEq, Repr

/-- The machine right after reset (10_state.md R35, 70_reset_and_hazards.md R119), for the empty image (R122) and no
input response queued (log entries 2 and 7). `State.load` of Ports.lean is the reset for any image and stream. -/
def State.reset : State where
  regs := Vector.replicate 8 0
  pc := 0
  mem := { program := { length := 0, cells := [] }, heap := [] }
  nextId := Config.firstIdentifier
  status := .running
  input := []
  output := []

end Sys2Proof.Machine
end

