-- ==== Sys2Proof/Machine/Ops.lean ====
section
/-! DEFINITION. The shared operations over registers, memory, the allocator, the status and the channels: the
primitives of 00_scope.md R9, each written once. Taking a failure is `State.raise`; there is no return from one
(60_exceptions.md R113). -/

namespace Sys2Proof.Machine

/-! ## Lists of key and value pairs -/

/-- The value listed for key `k`. -/
def lookup {α : Type} (k : Nat) : List (Nat × α) → Option α
  | [] => none
  | (j, v) :: rest => if j = k then some v else lookup k rest

/-- List `v` for key `k`, in the place of what was listed for it; keys stay in rising order. -/
def insertKey {α : Type} (k : Nat) (v : α) : List (Nat × α) → List (Nat × α)
  | [] => [(k, v)]
  | (j, u) :: rest =>
    if k < j then (k, v) :: (j, u) :: rest
    else if k = j then (k, v) :: rest
    else (j, u) :: insertKey k v rest

/-- Take key `k` off the list. -/
def eraseKey {α : Type} (k : Nat) : List (Nat × α) → List (Nat × α)
  | [] => []
  | (j, u) :: rest => if j = k then eraseKey k rest else (j, u) :: eraseKey k rest

/-- The keys rise strictly along the list. -/
abbrev Rising {α : Type} (l : List (Nat × α)) : Prop := l.Pairwise (fun p q => p.1 < q.1)

/-! ## Word arrays -/

/-- What a word that no cell lists reads as: 0 (20_memory.md R46 "zero-filled", R54 point 3; log entry 8). -/
def unlistedWord : Word := 0

/-- The canonical form of an array: indices rise strictly, lie inside the array, and no cell lists the unlisted
word. Equal arrays are then equal data. -/
abbrev WordArray.wf (a : WordArray) : Prop :=
  Rising a.cells ∧ ∀ c ∈ a.cells, c.1 < a.length ∧ c.2 ≠ unlistedWord

/-- Element `i`, if `i` is below the length. -/
def WordArray.get? (a : WordArray) (i : Nat) : Option Word :=
  if i < a.length then some ((lookup i a.cells).getD unlistedWord) else none

/-- The array with element `i` set to `v`; the length stays (10_state.md R22). -/
def WordArray.set (a : WordArray) (i : Nat) (v : Word) : WordArray :=
  { a with cells := if v = unlistedWord then eraseKey i a.cells else insertKey i v a.cells }

/-- A new array of `n` words, all 0 (20_memory.md R46). -/
def WordArray.zeros (n : Nat) : WordArray := { length := n, cells := [] }

/-- The cells of a sequence of words whose first has index `i`. -/
def cellsFrom (i : Nat) : List Word → List (Nat × Word)
  | [] => []
  | w :: rest => if w = unlistedWord then cellsFrom (i + 1) rest else (i, w) :: cellsFrom (i + 1) rest

/-- The array that holds a sequence of words, in order. -/
def WordArray.ofWords (ws : List Word) : WordArray := { length := ws.length, cells := cellsFrom 0 ws }

/-! ## The memory controller (20_memory.md R40) -/

/-- The canonical form of memory: identifiers rise strictly along the heap, and every array is canonical. -/
abbrev Memory.wf (m : Memory) : Prop :=
  m.program.wf ∧ Rising m.heap ∧ ∀ e ∈ m.heap, e.2.wf

/-- The array an identifier selects: 0 the program array, never a heap entry; any other the active heap array of that
identifier (20_memory.md R41, 42_arrays.md R85). -/
def Memory.array? (m : Memory) (id : Nat) : Option WordArray :=
  if id = 0 then some m.program else lookup id m.heap

/-- An identifier is active when it is a key of the heap (10_state.md R23); 0 never is (R22). -/
def Memory.active (m : Memory) (id : Nat) : Bool := id != 0 && (lookup id m.heap).isSome

/-- `MemRead((id, i), 1)` (20_memory.md R44). -/
def Memory.read (m : Memory) (id i : Nat) : Except Failure Word :=
  match m.array? id with
  | none => .error .invalidArrayAccess
  | some a =>
    match a.get? i with
    | none => .error .invalidArrayAccess
    | some v => .ok v

/-- The memory in which identifier `id` selects the array `a`. -/
def Memory.setArray (m : Memory) (id : Nat) (a : WordArray) : Memory :=
  if id = 0 then { m with program := a } else { m with heap := insertKey id a m.heap }

/-- `MemWrite((id, i), 1, v)` (20_memory.md R45). -/
def Memory.write (m : Memory) (id i : Nat) (v : Word) : Except Failure Memory :=
  match m.array? id with
  | none => .error .invalidArrayAccess
  | some a => if i < a.length then .ok (m.setArray id (a.set i v)) else .error .invalidArrayAccess

/-- The live words: `len(A0) + sum over id in H of len(H[id])` (20_memory.md R46, 00_scope.md R6). -/
def Memory.liveWords (m : Memory) : Nat := m.program.length + (m.heap.map (fun e => e.2.length)).sum

/-- `Free(id)` (20_memory.md R47). -/
def Memory.free (m : Memory) (id : Nat) : Except Failure Memory :=
  if m.active id then .ok { m with heap := eraseKey id m.heap } else .error .invalidArrayAbandonment

/-- `ReplaceProgram(id)` (20_memory.md R48): a copy of the heap array; arrays are values here, so nothing is shared
(10_state.md R38). -/
def Memory.replaceProgram (m : Memory) (id : Nat) : Except Failure Memory :=
  match lookup id m.heap with
  | none => .error .invalidLoad
  | some a => .ok { m with program := a }

/-- `FetchRead(p)` (20_memory.md R49): its own failure kind. -/
def Memory.fetchRead (m : Memory) (p : Nat) : Except Failure Word :=
  match m.program.get? p with
  | none => .error .executionFingerOutOfBounds
  | some w => .ok w

/-! ## Registers and the finger -/

/-- `x[r]` (10_state.md R18): every register is plain storage and a read never fails (R37). -/
def State.reg (s : State) (r : RegSel) : Word := s.regs[r]

/-- `x[r] <- v` (10_state.md R18: no aliasing, no hardwired register). -/
def State.setReg (s : State) (r : RegSel) (v : Word) : State := { s with regs := s.regs.set r v }

/-- `pc <- t`: only Load Program does this in its handler (40_cycle.md R80). -/
def State.setPc (s : State) (t : Word) : State := { s with pc := t }

/-- `pc <- pc + 1`, once per step, before the handler (40_cycle.md R76). The sum wraps only at pc = 2^32 - 1, where no
fetch can have succeeded (10_state.md R19; log entry 9). -/
def State.advance (s : State) : State := { s with pc := s.pc + 1 }

/-- The state of memory replaced, all else kept. -/
def State.setMem (s : State) (m : Memory) : State := { s with mem := m }

/-- `Alloc(n)` under a given limit on the live words (20_memory.md R46): the identifier check comes first
(60_exceptions.md R111, decision D9). -/
def State.allocWithin (limit : Nat) (s : State) (n : Nat) : Except Failure (Word × State) :=
  if s.nextId > Config.maxIdentifier then .error .identifierExhausted
  else if s.mem.liveWords + n > limit then .error .resourceExhausted
  else
    .ok (u32 s.nextId,
      { s with
        mem := { s.mem with heap := insertKey s.nextId (.zeros n) s.mem.heap }
        nextId := s.nextId + 1 })

/-- `Alloc(n)` (20_memory.md R46), under `MAX_LIVE_WORDS`. -/
def State.alloc (s : State) (n : Nat) : Except Failure (Word × State) := s.allocWithin Config.maxLiveWords n

/-! ## Status: halt and failure -/

/-- `halt` (40_cycle.md R79). -/
def State.halt (s : State) : State := { s with status := .halted }

/-- Failure entry (60_exceptions.md R108): the status records the kind and NOTHING else happens: no register saves
anything, there is no vector. The state it is applied to is the one right after the finger's advance (at a fetch
failure, the one before it), so nothing of the failing instruction is written (R109). -/
def State.raise (s : State) (kind : Failure) : State := { s with status := .failed kind }

/-- The numeric code of a failure kind (60_exceptions.md R101, R107). -/
def Failure.code : Failure → Nat
  | .invalidInstruction => 1
  | .invalidArrayAccess => 2
  | .invalidArrayAbandonment => 3
  | .divideByZero => 4
  | .invalidLoad => 5
  | .invalidOutput => 6
  | .executionFingerOutOfBounds => 7
  | .identifierExhausted => 8
  | .resourceExhausted => 9

/-- The end of a handler (40_cycle.md R79): it continues in the state it made, or raises its failure in the state it
started from. -/
def State.settle (s : State) (r : Except Failure State) : Host.Outcome State Fault Refusal :=
  .next (match r with
    | .ok t => t
    | .error kind => s.raise kind)

/-! ## The byte channels (45_io.md R97, R98) -/

/-- `OutByte(v)`: the byte reaches the environment inside the step (45_io.md R97). -/
def State.outByte (s : State) (v : Byte) : State := { s with output := s.output ++ [v] }

/-- The input channel after its next response has been taken (45_io.md R98: one response per request). -/
def State.takeResponse (s : State) : State := { s with input := s.input.tail }

/-- A step that waits in Input has not completed (40_cycle.md R82, 60_exceptions.md R117, 70_reset_and_hazards.md
R129): the finger is put back to where the step found it, all else being untouched, so that the state is the one before
the step. DESIGN CHOICE, log entry 3. -/
def State.hold (s : State) : State := { s with pc := s.pc - 1 }

/-! ## Placing a program word -/

/-- The state with `w` at index `pc` of the program array, which grows to hold it, and able to step. It stands for a
host's `LOAD` of a program and is no move of the machine (log entry 7). -/
def State.placeWord (s : State) (w : Word) : State :=
  let p := s.mem.program
  { s with
    mem := { s.mem with program := ({ p with length := max p.length (s.pc.toNat + 1) } : WordArray).set s.pc.toNat w }
    status := .running }

end Sys2Proof.Machine
end

