-- ==== Sys2Proof/Machine/Operands.lean ====
section
/-! DEFINITION. The operand forms (30_encoding.md R62): a register read whole, and the one immediate. A register pair
names a memory location (20_memory.md R41), and a register may hold an I/O byte (45_io.md R99, R100). -/

namespace Sys2Proof.Machine

/-- `zext_32(imm)` (30_encoding.md R62): unsigned, neither scaled nor sign-extended. -/
def immediateOperand (imm : BitVec 25) : Word := imm.setWidth 32

/-- A register value used as an identifier, an index or a size: an unsigned number (00_scope.md R8). -/
def State.natReg (s : State) (r : RegSel) : Nat := (s.reg r).toNat

/-- A register value as a byte to send: none above 255, never truncated (45_io.md R99). -/
def byteOperand (v : Word) : Option Byte :=
  if v.toNat > Config.maxOutput then none else some (v.setWidth 8)

/-- A received byte as a register value, zero-extended (45_io.md R100). -/
def byteValue (v : Byte) : Word := v.setWidth 32

end Sys2Proof.Machine
end

