-- ==== Sys2Proof/Machine/Alu.lean ====
section
/-! DEFINITION. Addition, Multiplication, Division and Not-And (43_alu.md). Values are unsigned (R94): the exact result
on natural numbers is taken first and narrowed by `u32`. -/

namespace Sys2Proof.Machine

/-- The shape of the three operations that cannot fail: `a` receives `v`. -/
def State.aluResult (s : State) (a : RegSel) (v : Word) : Host.Outcome State Fault Refusal :=
  s.settle (.ok (s.setReg a v))

/-- ADD (43_alu.md R90). -/
def execAdd (a b c : RegSel) (s : State) : Host.Outcome State Fault Refusal :=
  s.aluResult a (u32 (s.natReg b + s.natReg c))

/-- MUL (43_alu.md R91): the low 32 bits of the exact product. -/
def execMul (a b c : RegSel) (s : State) : Host.Outcome State Fault Refusal :=
  s.aluResult a (u32 (s.natReg b * s.natReg c))

/-- The unsigned quotient, or the failure (43_alu.md R92). That it is the floor quotient is general knowledge the spec
supplies (00_scope.md R8, 93_implementation_defined.md G2). PRESUMED, log entry 10. -/
def quotient (vb vc : Nat) : Except Failure Word :=
  if vc = 0 then .error .divideByZero else .ok (u32 (vb / vc))

/-- DIV (43_alu.md R92). -/
def execDiv (a b c : RegSel) (s : State) : Host.Outcome State Fault Refusal :=
  s.settle ((quotient (s.natReg b) (s.natReg c)).map (s.setReg a))

/-- NAND (43_alu.md R93): bitwise, 32 bits. -/
def execNand (a b c : RegSel) (s : State) : Host.Outcome State Fault Refusal :=
  s.aluResult a (~~~(s.reg b &&& s.reg c))

end Sys2Proof.Machine
end

