-- ==== Sys2Proof/Machine/Arrays.lean ====
section
/-! DEFINITION. Array Index, Array Amendment, Allocation and Abandonment (42_arrays.md). -/

namespace Sys2Proof.Machine

/-- INDEX (42_arrays.md R86): `a` receives element `x[c]` of array `x[b]`. -/
def execIndex (a b c : RegSel) (s : State) : Host.Outcome State Fault Refusal :=
  s.settle ((s.mem.read (s.natReg b) (s.natReg c)).map (s.setReg a))

/-- AMEND (42_arrays.md R87): element `x[b]` of array `x[a]` becomes `x[c]`. -/
def execAmend (a b c : RegSel) (s : State) : Host.Outcome State Fault Refusal :=
  s.settle ((s.mem.write (s.natReg a) (s.natReg b) (s.reg c)).map s.setMem)

/-- ALLOC (42_arrays.md R88): `b` receives the identifier of a new array of `x[c]` words. The size is read before `b`
is written. -/
def execAlloc (b c : RegSel) (s : State) : Host.Outcome State Fault Refusal :=
  s.settle ((s.alloc (s.natReg c)).map (fun r => r.2.setReg b r.1))

/-- ABANDON (42_arrays.md R89): array `x[c]` becomes inactive. -/
def execAbandon (c : RegSel) (s : State) : Host.Outcome State Fault Refusal :=
  s.settle ((s.mem.free (s.natReg c)).map s.setMem)

end Sys2Proof.Machine
end

