-- ==== Sys2Proof/Machine/Control.lean ====
section
/-! DEFINITION. Halt and Load Program (44_control.md), and the dispatch of the unassigned opcodes (40_cycle.md R78). -/

namespace Sys2Proof.Machine

/-- HALT (44_control.md R95). -/
def execHalt (s : State) : Host.Outcome State Fault Refusal :=
  s.settle (.ok s.halt)

/-- The memory after Load Program's replacement: none when the identifier is 0 (44_control.md R96). -/
def Memory.loadProgram (m : Memory) (id : Nat) : Except Failure Memory :=
  if id = 0 then .ok m else m.replaceProgram id

/-- LOADPROG (44_control.md R96): the finger is overwritten with `x[c]`, which is not checked here (decision D17). -/
def execLoadprog (b c : RegSel) (s : State) : Host.Outcome State Fault Refusal :=
  s.settle ((s.mem.loadProgram (s.natReg b)).map (fun m => (s.setMem m).setPc (s.reg c)))

/-- The unassigned opcodes (40_cycle.md R78, 60_exceptions.md R103). Only opcodes 14 and 15 decode to this
(30_encoding.md R66), so the number itself is not looked at. -/
def execInvalid (_op : Fin 16) (s : State) : Host.Outcome State Fault Refusal :=
  s.settle (.error .invalidInstruction)

end Sys2Proof.Machine
end

