-- ==== Sys2Proof/Machine/Io.lean ====
section
/-! DEFINITION. Output and Input (45_io.md). -/

namespace Sys2Proof.Machine

/-- OUTPUT (45_io.md R99): the check comes before anything is sent. -/
def execOutput (c : RegSel) (s : State) : Host.Outcome State Fault Refusal :=
  s.settle (match byteOperand (s.reg c) with
    | none => .error .invalidOutput
    | some v => .ok (s.outByte v))

/-- What Input does with the response it got: a byte is written, end of stream and a read error leave the register
(45_io.md R100). -/
def State.receive (s : State) (c : RegSel) : InputResponse → State
  | .byte v => s.setReg c (byteValue v)
  | .endOfStream => s
  | .readError => s

/-- INPUT (45_io.md R100): the next response of the channel is taken and used. While there is none the step waits
(R98): the state is held as the step found it (log entry 3). -/
def execInput (c : RegSel) (s : State) : Host.Outcome State Fault Refusal :=
  s.settle (.ok (match s.input with
    | [] => s.hold
    | r :: _ => s.takeResponse.receive c r))

end Sys2Proof.Machine
end

