-- ==== Sys2Proof/Machine/Flags.lean ====
section
/-! DEFINITION. The UM core has no condition flags and no instruction writes one (10_state.md R27). What stands in
their place is Conditional Move's test of a general register. -/

namespace Sys2Proof.Machine

/-- The condition Conditional Move tests: any nonzero value is true (41_move.md R83). -/
def nonzero (v : Word) : Bool := v != 0

end Sys2Proof.Machine
end

