-- ==== Sys2Proof/Machine/Move.lean ====
section
/-! DEFINITION. Conditional Move and Orthography (41_move.md). Each handler runs on the state after the finger's
advance (40_cycle.md R76) and reads its sources before it writes (R80). -/

namespace Sys2Proof.Machine

/-- CMOV (41_move.md R83). -/
def execCmov (a b c : RegSel) (s : State) : Host.Outcome State Fault Refusal :=
  s.settle (.ok (if nonzero (s.reg c) then s.setReg a (s.reg b) else s))

/-- ORTHO (41_move.md R84). -/
def execOrtho (a : RegSel) (imm : BitVec 25) (s : State) : Host.Outcome State Fault Refusal :=
  s.settle (.ok (s.setReg a (immediateOperand imm)))

end Sys2Proof.Machine
end

