-- ==== Sys2Proof/Machine/Dispatch.lean ====
section
/-! DEFINITION. The opcode dispatcher (40_cycle.md R78): one handler per decoded instruction, run on the state after
the finger's advance. -/

namespace Sys2Proof.Machine

def exec (i : Instr) (s : State) : Host.Outcome State Fault Refusal :=
  match i with
  | .cmov a b c => Sys2Proof.Machine.execCmov a b c s
  | .index a b c => Sys2Proof.Machine.execIndex a b c s
  | .amend a b c => Sys2Proof.Machine.execAmend a b c s
  | .add a b c => Sys2Proof.Machine.execAdd a b c s
  | .mul a b c => Sys2Proof.Machine.execMul a b c s
  | .div a b c => Sys2Proof.Machine.execDiv a b c s
  | .nand a b c => Sys2Proof.Machine.execNand a b c s
  | .halt => Sys2Proof.Machine.execHalt s
  | .alloc b c => Sys2Proof.Machine.execAlloc b c s
  | .abandon c => Sys2Proof.Machine.execAbandon c s
  | .output c => Sys2Proof.Machine.execOutput c s
  | .input c => Sys2Proof.Machine.execInput c s
  | .loadprog b c => Sys2Proof.Machine.execLoadprog b c s
  | .ortho a imm => Sys2Proof.Machine.execOrtho a imm s
  | .invalid op => Sys2Proof.Machine.execInvalid op s

end Sys2Proof.Machine
end

