-- ==== Sys2Proof/Machine/Step.lean ====
section
/-! DEFINITION. One step (40_cycle.md R73, R81): fetch, advance, decode, dispatch, result. -/

namespace Sys2Proof.Machine

/-- The step (40_cycle.md R81). Outside `running` there is none (R74). A fetch failure leaves the finger where it was
(R75). -/
def step (s : State) : Host.Outcome State Fault Refusal :=
  match s.status with
  | .halted => .fault .notRunning
  | .failed _ => .fault .notRunning
  | .running =>
    match s.mem.fetchRead s.pc.toNat with
    | .error kind => .next (s.raise kind)
    | .ok w => exec (decode w) s.advance

/-- The state whose next step runs the instruction with bits `w` (one word; bits at and above `nbits` are 0): the word
placed at the finger of a running machine (log entry 7). -/
def State.withFetchWord (s : State) (nbits w : Nat) : State := s.placeWord (u32 (w % 2 ^ nbits))

end Sys2Proof.Machine
end

