-- ==== Sys2Proof/Machine/Ports.lean ====
section
/-! DEFINITION. The host's ports (10_state.md R33): LOAD, the result of STEP, an answer on IN, and DIAG. OUT is
`State.output`. -/

namespace Sys2Proof.Machine

/-- `LOAD(image)` (10_state.md R33, R35): the machine of an image, with the responses already given to its
input channel (none for a run whose environment answers on request; log entry 2). An
image of more than 2^32 - 1 words is refused (70_reset_and_hazards.md R123). Whatever machine there was is discarded
(R119), so it is no argument. -/
def State.load (image : List Word) (responses : List InputResponse) : Option State :=
  if image.length > Config.maxProgramWords then none
  else some { State.reset with
    mem := { State.reset.mem with program := .ofWords image }
    input := responses }

/-- The words of a byte stream, four bytes a word, the first byte in bits [31:24] (70_reset_and_hazards.md R120); none
when 1 to 3 bytes are left over (R121). -/
def imageOfBytes : List Byte → Option (List Word)
  | [] => some []
  | b0 :: b1 :: b2 :: b3 :: rest =>
    (imageOfBytes rest).map
      (u32 (b0.toNat * 2 ^ 24 + b1.toNat * 2 ^ 16 + b2.toNat * 2 ^ 8 + b3.toNat) :: ·)
  | _ => none

/-- `LOAD` of an image given as bytes (70_reset_and_hazards.md R120, R121, R123). -/
def State.loadBytes (bytes : List Byte) (responses : List InputResponse) : Option State :=
  (imageOfBytes bytes).bind (State.load · responses)

/-- The step of this state waits in Input: it has fetched an Input and the channel has no response (45_io.md R98,
60_exceptions.md R117). -/
def State.waitsForInput (s : State) : Bool :=
  match s.status, s.mem.fetchRead s.pc.toNat, s.input with
  | .running, .ok w, [] =>
    match decode w with
    | .input _ => true
    | _ => false
  | _, _, _ => false

/-- An answer of the environment to a request, which comes after those already given (45_io.md R98). -/
def State.answer (s : State) (r : InputResponse) : State := { s with input := s.input ++ [r] }

/-- What `STEP` returns (10_state.md R34). -/
inductive StepResult where
  | continue
  | halt
  | fail (kind : Failure)
  deriving DecidableEq, Repr

/-- The result that the status a step leaves stands for (40_cycle.md R79). -/
def Status.result : Status → StepResult
  | .running => .continue
  | .halted => .halt
  | .failed kind => .fail kind

/-- The result of the step of this state (40_cycle.md R79, R82); none where no result comes: in a terminal status
(R74) and while Input waits (45_io.md R98). -/
def State.stepResult (s : State) : Option StepResult :=
  if s.waitsForInput then none
  else
    match step s with
    | .next t => some t.status.result
    | .fault _ => none
    | .refused _ => none

/-- What `DIAG` shows (10_state.md R33, 60_exceptions.md R116). -/
structure Snapshot where
  /-- The execution finger. -/
  pc : Word
  /-- The word at the finger, none when the finger is out of bounds. -/
  word : Option Word
  /-- That word decoded. -/
  decoded : Option Instr
  /-- The eight registers. -/
  regs : Vector Word 8
  deriving DecidableEq, Repr

/-- `DIAG()` (60_exceptions.md R116): it only reads, and tolerates a finger out of bounds. -/
def State.diag (s : State) : Snapshot :=
  let word := s.mem.program.get? s.pc.toNat
  { pc := s.pc, word := word, decoded := word.map decode, regs := s.regs }

end Sys2Proof.Machine
end

