-- ==== Sys2Proof/Machine/Run.lean ====
section
/-! DEFINITION. A run (70_reset_and_hazards.md R131, R132): the steps of a machine whose environment answers each input
request from a stream, how a run ends, and what a claim may speak of. The stream is an argument of a run and no part of
the state, so it may be infinite (45_io.md R98). -/

namespace Sys2Proof.Machine

/-- `InputStream` (00_scope.md R6): the responses that successive requests take in order, a finite or an infinite list
(45_io.md R98). -/
inductive InputStream where
  | finite (responses : List InputResponse)
  | infinite (responses : Nat → InputResponse)

/-- The response to request number `k`, counted from 0; none where a finite stream is used up. -/
def InputStream.response? : InputStream → Nat → Option InputResponse
  | .finite l, k => l[k]?
  | .infinite f, k => some (f k)

/-- The first `m` responses, or all where there are fewer. -/
def InputStream.take : InputStream → Nat → List InputResponse
  | .finite l, m => l.take m
  | .infinite f, m => (List.range m).map f

/-- Where a run stands: the state, and how many requests the environment has answered. -/
structure RunPoint where
  state : State
  asked : Nat
  deriving DecidableEq, Repr

/-- The point once the environment has answered the request that the coming step makes, if that step would wait
(45_io.md R98: one response per request). Where the stream is used up there is no answer. -/
def RunPoint.answered (env : InputStream) (p : RunPoint) : RunPoint :=
  if p.state.waitsForInput then
    match env.response? p.asked with
    | some r => { state := p.state.answer r, asked := p.asked + 1 }
    | none => p
  else p

/-- What the `STEP` at this point returns (10_state.md R34); none where no step completes. -/
def RunPoint.result (env : InputStream) (p : RunPoint) : Option StepResult := (p.answered env).state.stepResult

/-- The point after the `STEP` at this point. Where none completes the run stays where it is: in a terminal status
(40_cycle.md R74), and at a request that no response answers (70_reset_and_hazards.md R129). -/
def RunPoint.next (env : InputStream) (p : RunPoint) : RunPoint :=
  match step (p.answered env).state with
  | .next t => { state := t, asked := (p.answered env).asked }
  | .fault _ => p
  | .refused _ => p

/-- The point after `n` steps of the run from `s`. The run of an image is the one from `State.load image []`. -/
def runAfter (env : InputStream) (s : State) : Nat → RunPoint
  | 0 => { state := s, asked := 0 }
  | n + 1 => (runAfter env s n).next env

/-- The two model faults, as opposed to the source's seven kinds (60_exceptions.md R101, R107). -/
def Failure.isModelFault : Failure → Bool
  | .identifierExhausted => true
  | .resourceExhausted => true
  | .invalidInstruction => false
  | .invalidArrayAccess => false
  | .invalidArrayAbandonment => false
  | .divideByZero => false
  | .invalidLoad => false
  | .invalidOutput => false
  | .executionFingerOutOfBounds => false

/-- The ways a run ends (70_reset_and_hazards.md R131). -/
inductive EndKind where
  | halt
  | fail (kind : Failure)
  | modelFault (kind : Failure)
  | blocked
  | divergence
  deriving DecidableEq, Repr

/-- The request of the coming step never gets a response (45_io.md R98: "That is a hang"). -/
def RunPoint.isBlocked (env : InputStream) (p : RunPoint) : Prop :=
  p.state.waitsForInput = true ∧ env.response? p.asked = none

/-- Some step of the run returned `r`, and `st` is the status it left. -/
def Returned (env : InputStream) (s : State) (r : StepResult) (st : Status) : Prop :=
  ∃ n, (runAfter env s n).result env = some r ∧ (runAfter env s (n + 1)).state.status = st

/-- The run from `s` with the stream `env` ends this way (70_reset_and_hazards.md R131). -/
def EndsIn (env : InputStream) (s : State) : EndKind → Prop
  | .halt => Returned env s .halt .halted
  | .fail kind => kind.isModelFault = false ∧ Returned env s (.fail kind) (.failed kind)
  | .modelFault kind => kind.isModelFault = true ∧ Returned env s (.fail kind) (.failed kind)
  | .blocked => ∃ n, (runAfter env s n).isBlocked env
  | .divergence => ∀ n, (runAfter env s n).result env = some .continue

/-- The final state a claim may speak of: `x`, `pc`, `A0` and `H`, `next_id` (70_reset_and_hazards.md R132). -/
structure FinalState where
  regs : Vector Word 8
  pc : Word
  mem : Memory
  nextId : Nat
  deriving DecidableEq, Repr

/-- What of a state R132 names. -/
def State.final (s : State) : FinalState := { regs := s.regs, pc := s.pc, mem := s.mem, nextId := s.nextId }

/-- What a claim may speak of for a run (70_reset_and_hazards.md R132): its end, the bytes sent by their place in the
order of sending (infinitely many where a run that diverges sends so many), and at Halt or Fail the final state. -/
structure Observation where
  kind : EndKind
  output : Nat → Option Byte
  final : Option FinalState

/-- The final state that goes with an end: at Halt and Fail that of a terminal state the run comes to, else none. -/
def FinalAt (env : InputStream) (s : State) (final : Option FinalState) : EndKind → Prop
  | .halt => ∃ n, (runAfter env s n).state.status ≠ .running ∧ final = some (runAfter env s n).state.final
  | .fail _ => ∃ n, (runAfter env s n).state.status ≠ .running ∧ final = some (runAfter env s n).state.final
  | .modelFault _ => final = none
  | .blocked => final = none
  | .divergence => final = none

/-- `o` is the observation of the run from `s` with the stream `env` (70_reset_and_hazards.md R132). -/
def Observes (env : InputStream) (s : State) (o : Observation) : Prop :=
  EndsIn env s o.kind ∧
  (∀ i v, o.output i = some v ↔ ∃ n, (runAfter env s n).state.output[i]? = some v) ∧
  FinalAt env s o.final o.kind

/-- The premises of every claim (70_reset_and_hazards.md R132): no model fault is reached, and the host answers every
input request. -/
def ClaimPremises (env : InputStream) (s : State) : Prop :=
  (∀ kind, ¬ EndsIn env s (.modelFault kind)) ∧ ¬ EndsIn env s .blocked

end Sys2Proof.Machine
end

