-- ==== Sys2Proof/Safety.lean ====
section
/-! DEFINITION. The terms claims are stated in: the spec's own reading of a bit field, the invariant of 10_state.md R36,
the parts of a state and what it is to change only some of them, and what a run reaches. -/

namespace Sys2Proof

/-- `w[hi:lo]` as 00_scope.md R7 gives it: bits `hi` down to `lo`, read as an unsigned number. -/
def bits (w : Word) (hi lo : Nat) : Nat := w.toNat / 2 ^ lo % 2 ^ (hi - lo + 1)

/-- The register that the three bits from `lo` up name (30_encoding.md R60, R61). -/
def selector (w : Word) (lo : Nat) : RegSel := Fin.ofNat 8 (bits w (lo + 2) lo)

/-- The bits an opcode reads, with the opcode's own (the complement of 30_encoding.md R67's table of unused bits). -/
def usedBits (op : Nat) : Word :=
  if op ≤ 6 then 0xF00001FF
  else if op = 8 ∨ op = 12 then 0xF000003F
  else if op = 9 ∨ op = 10 ∨ op = 11 then 0xF0000007
  else if op = 13 then 0xFFFFFFFF
  else 0xF0000000

namespace Machine

/-- The length of the array an identifier selects; none when the identifier is nonzero and not active. -/
def Memory.size? (m : Memory) (id : Nat) : Option Nat := (m.array? id).map (·.length)

/-- Location `(id, i)` exists: the array is there and `i` is below its length (20_memory.md R41). -/
def Memory.inBounds (m : Memory) (id i : Nat) : Prop := ∃ n, m.size? id = some n ∧ i < n

/-- The invariants of 10_state.md R36, points 1 to 3, with the bound on heap lengths that point 3 needs (00_scope.md
R5) and the canonical form of memory (log entry 8). -/
structure State.Inv (s : State) : Prop where
  /-- Memory is in canonical form. -/
  memWf : s.mem.wf
  /-- Points 1 and 2: every heap key is an issued identifier, so none is 0. -/
  heapIds : ∀ e ∈ s.mem.heap, 1 ≤ e.1 ∧ e.1 < s.nextId
  /-- The allocator's range (10_state.md R24). -/
  nextIdRange : 1 ≤ s.nextId ∧ s.nextId ≤ 2 ^ 32
  /-- Point 3. -/
  programLength : s.mem.program.length ≤ 2 ^ 32 - 1
  /-- A heap array is no longer than a 32-bit size can say. -/
  heapLengths : ∀ e ∈ s.mem.heap, e.2.length ≤ 2 ^ 32 - 1

/-- The parts of a state, as frames name them. -/
inductive Part where
  /-- One general register. -/
  | reg (r : RegSel)
  /-- The execution finger. -/
  | pc
  /-- One word of memory, as a read gives it. -/
  | word (id i : Nat)
  /-- Whether an array is there, and its length. -/
  | array (id : Nat)
  /-- The identifier allocator. -/
  | nextId
  /-- The run status. -/
  | status
  /-- The responses not yet read. -/
  | input
  /-- The bytes sent. -/
  | output

/-- A part is in `t` as it was in `s`. -/
def Part.unchanged (s t : State) : Part → Prop
  | .reg r => t.reg r = s.reg r
  | .pc => t.pc = s.pc
  | .word id i => t.mem.read id i = s.mem.read id i
  | .array id => t.mem.size? id = s.mem.size? id
  | .nextId => t.nextId = s.nextId
  | .status => t.status = s.status
  | .input => t.input = s.input
  | .output => t.output = s.output

/-- Every part that `may` does not name is in `t` as it was in `s`. -/
def ChangesOnly (may : Part → Prop) (s t : State) : Prop := ∀ p, ¬ may p → p.unchanged s t

/-- Array `id` and all its words. -/
def Part.ofArray (id : Nat) (p : Part) : Prop := p = .array id ∨ ∃ i, p = .word id i

/-- The state fetches word `w` (40_cycle.md R75). -/
def State.fetches (s : State) (w : Word) : Prop := s.mem.fetchRead s.pc.toNat = .ok w

/-- The instruction leaves a failure of this kind, when run in `s`. -/
def FailsWith (i : Instr) (s : State) (kind : Failure) : Prop :=
  ∃ t, exec i s = .next t ∧ t.status = .failed kind

/-- The states that steps, and answers of the environment to a step that waits, come to from `s`: every state of every
run from `s`, whatever its stream. -/
inductive Reaches (s : State) : State → Prop where
  | start : Reaches s s
  | more {t u : State} : Reaches s t → step t = .next u → Reaches s u
  | answered {t : State} (r : InputResponse) : Reaches s t → t.waitsForInput = true → Reaches s (t.answer r)

end Machine

end Sys2Proof
end

