-- ==== Sys2Proof/Certificates/Slice0/Obligations.lean ====
section
/-! DEFINITION. The statements for the provers. A docstring names the rule of spec/ a statement formalises. Where a
statement rests on one of the spec's own decisions (D<n> of 92_eei_decisions.md), on a rule the spec marks as derived,
or on a choice of this model (a log entry), its docstring says so. `ChangesOnly may s t` is the frame: every register,
word, array, channel and control part that `may` does not name is as before. -/

open Sys2Proof Sys2Proof.Machine

/-! ## Encoding -/

/-- Sanity: the spec's worked words (30_encoding.md R71, 95_test_vectors.md "Decode examples") decode as it says. -/
def Obligations.SpecExampleWordsDecode : Prop :=
  decode 0x00000053 = .cmov 1 2 3 ∧ decode 0x0FFFFE53 = .cmov 1 2 3 ∧
  decode 0x100000D0 = .index 3 2 0 ∧ decode 0x2000009C = .amend 2 3 4 ∧
  decode 0x5000008E = .div 2 1 6 ∧ decode 0x7FFFFFFF = .halt ∧
  decode 0x80000035 = .alloc 6 5 ∧ decode 0xAFFFFFC7 = .output 7 ∧
  decode 0xC0000030 = .loadprog 6 0 ∧ decode 0xD000002A = .ortho 0 42 ∧
  decode 0xDFFFFFFF = .ortho 7 0x1FFFFFF ∧ decode 0xF0000000 = .invalid 15

/-- The opcode map with both formats (30_encoding.md R59, R60, R61, R63, R65), each field read as R7 reads a field. -/
def Obligations.DecodeFollowsTheOpcodeMap : Prop :=
  ∀ w : Word,
    let a := selector w 6
    let b := selector w 3
    let c := selector w 0
    (bits w 31 28 = 0 → decode w = .cmov a b c) ∧
    (bits w 31 28 = 1 → decode w = .index a b c) ∧
    (bits w 31 28 = 2 → decode w = .amend a b c) ∧
    (bits w 31 28 = 3 → decode w = .add a b c) ∧
    (bits w 31 28 = 4 → decode w = .mul a b c) ∧
    (bits w 31 28 = 5 → decode w = .div a b c) ∧
    (bits w 31 28 = 6 → decode w = .nand a b c) ∧
    (bits w 31 28 = 7 → decode w = .halt) ∧
    (bits w 31 28 = 8 → decode w = .alloc b c) ∧
    (bits w 31 28 = 9 → decode w = .abandon c) ∧
    (bits w 31 28 = 10 → decode w = .output c) ∧
    (bits w 31 28 = 11 → decode w = .input c) ∧
    (bits w 31 28 = 12 → decode w = .loadprog b c) ∧
    (bits w 31 28 = 13 → decode w = .ortho (selector w 25) (BitVec.ofNat 25 (bits w 24 0))) ∧
    (bits w 31 28 = 14 → decode w = .invalid 14) ∧
    (bits w 31 28 = 15 → decode w = .invalid 15)

/-- Round trip over every instruction at every operand value (30_encoding.md R69, which the spec marks as derived). -/
def Obligations.DecodeOfEncodeGivesTheInstruction : Prop :=
  ∀ i : Instr, i.wf = true → decode (encode i) = i

/-- The decoder is total with well-formed results, and encoding what it read loses nothing it read (30_encoding.md
R64, R69; the spec marks R69 as derived). -/
def Obligations.ReencodingKeepsWhatWasDecoded : Prop :=
  ∀ w : Word, (decode w).wf = true ∧ decode (encode (decode w)) = decode w ∧
    (∀ op, decode w = .invalid op → bits w 31 28 = 14 ∨ bits w 31 28 = 15)

/-- Bits an opcode does not read do not change what a word decodes to (30_encoding.md R67, which the spec marks as
derived from R64). -/
def Obligations.UnusedBitsAreIgnored : Prop :=
  ∀ w v : Word, w &&& usedBits (bits w 31 28) = v &&& usedBits (bits w 31 28) → decode w = decode v

/-! ## The step -/

/-- A step of a running machine that fetches `w` is `exec` of the decoded `w` on the state after the advance; the
advance adds exactly 1 to the finger, for every word, and touches nothing else (40_cycle.md R76). -/
def Obligations.StepAdvancesThenRunsTheDecodedInstruction : Prop :=
  ∀ (s : State) (w : Word), s.status = .running → s.fetches w →
    step s = exec (decode w) s.advance ∧ s.advance.pc = s.pc + 1 ∧
    (s.Inv → s.advance.pc.toNat = s.pc.toNat + 1) ∧
    ChangesOnly (· = .pc) s s.advance

/-- A fetch at or past the end of the program array ends the run with its own kind and the finger where it was
(40_cycle.md R75, 60_exceptions.md R102; "pc unchanged" is the spec's decision D4, the check at fetch D2). -/
def Obligations.FetchPastTheEndFailsWithTheFingerUnchanged : Prop :=
  ∀ s : State, s.status = .running → s.mem.program.length ≤ s.pc.toNat →
    ∃ t, step s = .next t ∧ t.status = .failed .executionFingerOutOfBounds ∧
      s.stepResult = some (.fail .executionFingerOutOfBounds) ∧ ChangesOnly (· = .status) s t

/-- A terminal status has no step and gives no result (40_cycle.md R74, the spec's decision D6; that the model says
"no step" by the fault `notRunning` is its own choice, log entry 5). -/
def Obligations.TerminalStatusHasNoStep : Prop :=
  ∀ s : State, s.status ≠ .running → step s = .fault .notRunning ∧ s.stepResult = none

/-- The state machine (40_cycle.md R82). Every step that answers starts in `running` and either waits in Input, changing
nothing and returning nothing (the model's held step, log entry 3), or ends as the table says with the result the table
says; `halted` is reached by opcode 7 and by nothing else. -/
def Obligations.StatusMovesOnlyAsTheStateMachineSays : Prop :=
  ∀ s t : State, step s = .next t →
    s.status = .running ∧
    ((s.waitsForInput = true ∧ t = s ∧ s.stepResult = none) ∨
     (s.waitsForInput = false ∧ t.status = .running ∧ s.stepResult = some .continue) ∨
     (t.status = .halted ∧ s.stepResult = some .halt) ∨
     (∃ kind, t.status = .failed kind ∧ s.stepResult = some (.fail kind))) ∧
    (t.status = .halted ↔ ∃ w, s.fetches w ∧ bits w 31 28 = 7)

/-- Every step keeps the invariants of 10_state.md R36, points 1 to 3 (which the spec marks as derived), and the
canonical form of memory (log entry 8). -/
def Obligations.StepKeepsTheInvariant : Prop :=
  ∀ s t : State, s.Inv → step s = .next t → t.Inv

/-- The reset state meets the invariant (10_state.md R36). -/
def Obligations.ResetMeetsTheInvariant : Prop := State.reset.Inv

/-- No handler but Load Program's writes the finger (40_cycle.md R80; the rule's last point is the spec's decision
D14). An Input without a response does not complete and is left out here (log entry 3). -/
def Obligations.OnlyLoadProgramSetsTheFinger : Prop :=
  ∀ (i : Instr) (s t : State), (∀ b c, i ≠ .loadprog b c) → ¬ ((∃ c, i = .input c) ∧ s.input = []) →
    exec i s = .next t → t.pc = s.pc

/-! ## Reset and load -/

/-- What `LOAD` leaves, for every image, and which images it refuses (10_state.md R35, 70_reset_and_hazards.md R119,
R123; the values of pc, heap and status are the spec's decision D8, the limit D3). The spec's LOAD takes an image alone:
that is the empty list of responses. That `State.load` may also queue a finite list of responses at the load, and leaves
it whole in the channel, is the model's choice (log entry 2); an infinite stream answers on request, in a run. -/
def Obligations.LoadConstructsTheResetState : Prop :=
  ∀ (image : List Word) (responses : List InputResponse),
    (2 ^ 32 - 1 < image.length → State.load image responses = none) ∧
    (image.length ≤ 2 ^ 32 - 1 →
      ∃ s, State.load image responses = some s ∧
        (∀ r, s.reg r = 0) ∧ s.pc = 0 ∧ s.nextId = 1 ∧ s.status = .running ∧
        s.output = [] ∧ s.input = responses ∧
        s.mem.size? 0 = some image.length ∧
        (∀ i w, s.mem.read 0 i = .ok w ↔ image[i]? = some w) ∧
        (∀ id, s.mem.active id = false) ∧ s.Inv)

/-- The load contract (70_reset_and_hazards.md R120, R121): four bytes a word, the first byte the most significant,
word 0 where execution begins; a stream with 1 to 3 bytes left over gives no machine. -/
def Obligations.ImageBytesLoadAsBigEndianWords : Prop :=
  ∀ (bytes : List Byte) (responses : List InputResponse),
    (bytes.length % 4 ≠ 0 → State.loadBytes bytes responses = none) ∧
    (bytes.length % 4 = 0 →
      ∃ image : List Word, image.length = bytes.length / 4 ∧
        State.loadBytes bytes responses = State.load image responses ∧
        (∀ k, k < image.length →
          (image.getD k 0).toNat =
            (bytes.getD (4 * k) 0).toNat * 2 ^ 24 + (bytes.getD (4 * k + 1) 0).toNat * 2 ^ 16 +
            (bytes.getD (4 * k + 2) 0).toNat * 2 ^ 8 + (bytes.getD (4 * k + 3) 0).toNat) ∧
        (∀ s, State.load image responses = some s →
          s.pc = 0 ∧ ∀ k, k < image.length → s.mem.read 0 k = .ok (image.getD k 0)))

/-! ## Failures -/

/-- A failing instruction has no partial effect, and the failing word still stands at the index before the finger
(60_exceptions.md R108, R109; no partial effect is the spec's decision D5). -/
def Obligations.FailureChangesOnlyTheStatus : Prop :=
  (∀ (i : Instr) (s t : State) (kind : Failure), s.status = .running → exec i s = .next t →
    t.status = .failed kind → ChangesOnly (· = .status) s t) ∧
  (∀ (s t : State) (w : Word) (kind : Failure), s.fetches w → step s = .next t → t.status = .failed kind →
    t.pc = s.pc + 1 ∧ t.mem.fetchRead (t.pc - 1).toNat = .ok w)

/-- Which instruction raises these failures, and exactly when (60_exceptions.md R105, R106). -/
def Obligations.SingleInstructionFailuresHappenExactlyWhenStated : Prop :=
  ∀ (i : Instr) (s : State), s.status = .running →
    (FailsWith i s .invalidArrayAbandonment ↔
      ∃ c, i = .abandon c ∧ (s.reg c = 0 ∨ s.mem.active (s.reg c).toNat = false)) ∧
    (FailsWith i s .divideByZero ↔ ∃ a b c, i = .div a b c ∧ s.reg c = 0) ∧
    (FailsWith i s .invalidLoad ↔
      ∃ b c, i = .loadprog b c ∧ s.reg b ≠ 0 ∧ s.mem.active (s.reg b).toNat = false) ∧
    (FailsWith i s .invalidOutput ↔ ∃ c, i = .output c ∧ 255 < (s.reg c).toNat)

/-- Which instruction raises InvalidArrayAccess, and exactly when (60_exceptions.md R104; that an index past the end of
the program array gives this kind is the spec's decision D18). -/
def Obligations.ArrayAccessFailsExactlyOutsideTheArrays : Prop :=
  ∀ (i : Instr) (s : State), s.status = .running →
    (FailsWith i s .invalidArrayAccess ↔
      (∃ a b c, i = .index a b c ∧ ¬ s.mem.inBounds (s.reg b).toNat (s.reg c).toNat) ∨
      (∃ a b c, i = .amend a b c ∧ ¬ s.mem.inBounds (s.reg a).toNat (s.reg b).toNat))

/-- The two model faults of Allocation, their causes and their order (60_exceptions.md R107, R111, 20_memory.md R46; the
spec's decisions D9 and D10; the limit is the constant of log entry 1). -/
def Obligations.AllocationFaultsHappenExactlyAtTheLimits : Prop :=
  ∀ (i : Instr) (s : State), s.status = .running →
    (FailsWith i s .identifierExhausted ↔ ∃ b c, i = .alloc b c ∧ 2 ^ 32 - 1 < s.nextId) ∧
    (FailsWith i s .resourceExhausted ↔
      ∃ b c, i = .alloc b c ∧ s.nextId ≤ 2 ^ 32 - 1 ∧
        Config.maxLiveWords < s.mem.liveWords + (s.reg c).toNat) ∧
    ¬ FailsWith i s .executionFingerOutOfBounds

/-- InvalidInstruction (60_exceptions.md R103): every word whose opcode is 14 or 15 raises it, after the advance;
no other word does. That nothing else changes is R109, the spec's decision D5; that `exec` treats the term `invalid` of
any opcode alike is the model's choice (log entry 11). -/
def Obligations.UnassignedOpcodesRaiseInvalidInstruction : Prop :=
  (∀ (op : Fin 16) (s : State),
    ∃ t, exec (.invalid op) s = .next t ∧ t.status = .failed .invalidInstruction ∧ ChangesOnly (· = .status) s t) ∧
  (∀ (s : State) (w : Word), s.status = .running → s.fetches w →
    (14 ≤ bits w 31 28 →
      ∃ t, step s = .next t ∧ t.status = .failed .invalidInstruction ∧ t.pc = s.pc + 1 ∧
        ChangesOnly (fun p => p = .status ∨ p = .pc) s t) ∧
    (bits w 31 28 < 14 → ∀ t, step s = .next t → t.status ≠ .failed .invalidInstruction))

/-! ## Moves -/

/-- CMOV (41_move.md R83). -/
def Obligations.ConditionalMoveWritesWhenTheConditionIsNonzero : Prop :=
  (∀ w : Word, bits w 31 28 = 0 → decode w = .cmov (selector w 6) (selector w 3) (selector w 0)) ∧
  ∀ (a b c : RegSel) (s : State),
    ∃ t, exec (.cmov a b c) s = .next t ∧
      t.reg a = (if s.reg c ≠ 0 then s.reg b else s.reg a) ∧ ChangesOnly (· = .reg a) s t

/-- ORTHO (41_move.md R84): the immediate is zero-extended, and the finger ends one past the instruction. -/
def Obligations.OrthographyLoadsTheZeroExtendedImmediate : Prop :=
  (∀ w : Word, bits w 31 28 = 13 →
    decode w = .ortho (selector w 25) (BitVec.ofNat 25 (bits w 24 0))) ∧
  (∀ (a : RegSel) (imm : BitVec 25) (s : State),
    ∃ t, exec (.ortho a imm) s = .next t ∧ (t.reg a).toNat = imm.toNat ∧ ChangesOnly (· = .reg a) s t) ∧
  (∀ (s : State) (w : Word), s.status = .running → s.fetches w → bits w 31 28 = 13 →
    ∃ t, step s = .next t ∧ t.pc = s.pc + 1 ∧ (t.reg (selector w 25)).toNat = bits w 24 0 ∧
      ∀ r, r ≠ selector w 25 → t.reg r = s.reg r)

/-! ## Arithmetic and logic -/

/-- ADD (43_alu.md R90). -/
def Obligations.AdditionWrapsModuloTwoToTheThirtyTwo : Prop :=
  (∀ w : Word, bits w 31 28 = 3 → decode w = .add (selector w 6) (selector w 3) (selector w 0)) ∧
  ∀ (a b c : RegSel) (s : State),
    ∃ t, exec (.add a b c) s = .next t ∧
      (t.reg a).toNat = ((s.reg b).toNat + (s.reg c).toNat) % 2 ^ 32 ∧ ChangesOnly (· = .reg a) s t

/-- MUL (43_alu.md R91). -/
def Obligations.MultiplicationKeepsTheLowWord : Prop :=
  (∀ w : Word, bits w 31 28 = 4 → decode w = .mul (selector w 6) (selector w 3) (selector w 0)) ∧
  ∀ (a b c : RegSel) (s : State),
    ∃ t, exec (.mul a b c) s = .next t ∧
      (t.reg a).toNat = ((s.reg b).toNat * (s.reg c).toNat) % 2 ^ 32 ∧ ChangesOnly (· = .reg a) s t

/-- DIV (43_alu.md R92): the floor quotient (general knowledge the spec supplies, 93_implementation_defined.md G2, log
entry 10), or DivideByZero with nothing else changed. -/
def Obligations.DivisionGivesTheFloorQuotientOrFails : Prop :=
  ∀ (a b c : RegSel) (s : State),
    (s.reg c ≠ 0 →
      ∃ t, exec (.div a b c) s = .next t ∧
        (t.reg a).toNat * (s.reg c).toNat ≤ (s.reg b).toNat ∧
        (s.reg b).toNat < ((t.reg a).toNat + 1) * (s.reg c).toNat ∧ ChangesOnly (· = .reg a) s t) ∧
    (s.reg c = 0 →
      ∃ t, exec (.div a b c) s = .next t ∧ t.status = .failed .divideByZero ∧ ChangesOnly (· = .status) s t)

/-- NAND (43_alu.md R93), bit by bit. -/
def Obligations.NotAndIsBitwise : Prop :=
  (∀ w : Word, bits w 31 28 = 6 → decode w = .nand (selector w 6) (selector w 3) (selector w 0)) ∧
  ∀ (a b c : RegSel) (s : State),
    ∃ t, exec (.nand a b c) s = .next t ∧
      (∀ k, k < 32 → (t.reg a).getLsbD k = !((s.reg b).getLsbD k && (s.reg c).getLsbD k)) ∧
      ChangesOnly (· = .reg a) s t

/-- Subtraction from Not-And and Addition (43_alu.md R94, an identity the spec marks as derived): with 1 in `one`,
three instructions leave `x - y` modulo 2^32 in `d`. -/
def Obligations.SubtractionComesFromNotAndAndAddition : Prop :=
  ∀ (d x y one : RegSel) (s : State), d ≠ x → d ≠ one → s.reg one = 1 →
    ∃ t u v, exec (.nand d y y) s = .next t ∧ exec (.add d d one) t = .next u ∧ exec (.add d x d) u = .next v ∧
      (v.reg d).toNat = ((s.reg x).toNat + 2 ^ 32 - (s.reg y).toNat) % 2 ^ 32 ∧ ChangesOnly (· = .reg d) s v

/-- The pseudo-instructions NOP, NOT, AND and JMP are their expansions (30_encoding.md R72, the spec's decision D11,
marked as derived). -/
def Obligations.PseudoInstructionsDoWhatTheirNamesSay : Prop :=
  ∀ s : State,
    exec (decode 0) s = .next s ∧
    (∀ a b, ∃ t, exec (.nand a b b) s = .next t ∧ t.reg a = ~~~(s.reg b) ∧ ChangesOnly (· = .reg a) s t) ∧
    (∀ a b c, ∃ t u, exec (.nand a b c) s = .next t ∧ exec (.nand a a a) t = .next u ∧
      u.reg a = s.reg b &&& s.reg c ∧ ChangesOnly (· = .reg a) s u) ∧
    (∀ z r, s.reg z = 0 →
      ∃ t, exec (.loadprog z r) s = .next t ∧ t.pc = s.reg r ∧ ChangesOnly (· = .pc) s t)

/-! ## Arrays -/

/-- The memory controller's write (20_memory.md R45): inside the array exactly one word changes and no length or
activity does; outside it the answer is the failure, with no memory. -/
def Obligations.WordWriteChangesExactlyOneWord : Prop :=
  ∀ (m : Memory) (id i : Nat) (v : Word),
    (m.inBounds id i →
      ∃ m', m.write id i v = .ok m' ∧ m'.read id i = .ok v ∧
        (∀ id' i', (id', i') ≠ (id, i) → m'.read id' i' = m.read id' i') ∧
        (∀ id', m'.size? id' = m.size? id' ∧ m'.active id' = m.active id')) ∧
    (¬ m.inBounds id i → m.write id i v = .error .invalidArrayAccess)

/-- INDEX (42_arrays.md R85, R86): the element of the selected array, 0 selecting the program array; outside it the
failure, `x[a]` unchanged (the spec's decisions D18 and D5). -/
def Obligations.ArrayIndexReadsTheSelectedElement : Prop :=
  ∀ (a b c : RegSel) (s : State),
    (∀ v, s.mem.read (s.reg b).toNat (s.reg c).toNat = .ok v →
      ∃ t, exec (.index a b c) s = .next t ∧ t.reg a = v ∧ ChangesOnly (· = .reg a) s t) ∧
    (s.mem.inBounds (s.reg b).toNat (s.reg c).toNat →
      ∃ v, s.mem.read (s.reg b).toNat (s.reg c).toNat = .ok v) ∧
    (s.reg b = 0 → s.mem.read (s.reg b).toNat (s.reg c).toNat =
      if (s.reg c).toNat < s.mem.program.length then s.mem.fetchRead (s.reg c).toNat
      else .error .invalidArrayAccess) ∧
    (¬ s.mem.inBounds (s.reg b).toNat (s.reg c).toNat →
      ∃ t, exec (.index a b c) s = .next t ∧ t.status = .failed .invalidArrayAccess ∧
        ChangesOnly (· = .status) s t)

/-- AMEND (42_arrays.md R85, R87): the word `(x[a], x[b])` is `x[c]` afterwards and nothing else changes; outside the
arrays the failure and no memory changes (the spec's decisions D18 and D5). -/
def Obligations.ArrayAmendmentWritesTheSelectedElement : Prop :=
  ∀ (a b c : RegSel) (s : State),
    let id := (s.reg a).toNat
    let i := (s.reg b).toNat
    (s.mem.inBounds id i →
      ∃ t, exec (.amend a b c) s = .next t ∧ t.mem.read id i = .ok (s.reg c) ∧
        ChangesOnly (· = .word id i) s t) ∧
    (¬ s.mem.inBounds id i →
      ∃ t, exec (.amend a b c) s = .next t ∧ t.status = .failed .invalidArrayAccess ∧
        ChangesOnly (· = .status) s t)

/-- ALLOC (42_arrays.md R88, 20_memory.md R46), away from the two model faults (the spec's decisions D9 and D10): a new
array of exactly `x[c]` zero words under the next identifier, which was never issued before. -/
def Obligations.AllocationYieldsAFreshZeroArray : Prop :=
  ∀ (b c : RegSel) (s : State), 1 ≤ s.nextId → s.nextId ≤ 2 ^ 32 - 1 →
    s.mem.liveWords + (s.reg c).toNat ≤ Config.maxLiveWords →
    ∃ t, exec (.alloc b c) s = .next t ∧
      (t.reg b).toNat = s.nextId ∧ t.nextId = s.nextId + 1 ∧
      t.mem.size? s.nextId = some (s.reg c).toNat ∧
      (∀ i, i < (s.reg c).toNat → t.mem.read s.nextId i = .ok 0) ∧
      ChangesOnly (fun p => p = .reg b ∨ p = .nextId ∨ Part.ofArray s.nextId p) s t ∧
      (s.Inv → s.mem.active s.nextId = false)

/-- ABANDON (42_arrays.md R89): an active identifier becomes inactive and only its array goes, so a second abandonment
fails; 0, an inactive identifier and one never issued fail. -/
def Obligations.AbandonmentDeactivatesOnce : Prop :=
  (∀ w : Word, bits w 31 28 = 9 → decode w = .abandon (selector w 0)) ∧
  ∀ (c : RegSel) (s : State),
    let id := (s.reg c).toNat
    (s.mem.active id = true →
      ∃ t, exec (.abandon c) s = .next t ∧ t.mem.active id = false ∧ t.mem.size? id = none ∧
        ChangesOnly (Part.ofArray id) s t ∧ FailsWith (.abandon c) t .invalidArrayAbandonment) ∧
    (s.mem.active id = false → FailsWith (.abandon c) s .invalidArrayAbandonment) ∧
    (s.reg c = 0 → FailsWith (.abandon c) s .invalidArrayAbandonment) ∧
    (s.Inv → s.nextId ≤ id → FailsWith (.abandon c) s .invalidArrayAbandonment)

/-! ## Control -/

/-- HALT (44_control.md R95): the status alone changes, the result is Halt, and the machine has no step afterwards (the
spec's decision D6; said by the fault of log entry 5). -/
def Obligations.HaltStopsWithoutSideEffects : Prop :=
  ∀ s : State,
    ∃ t, exec .halt s = .next t ∧ t.status = .halted ∧ t.status.result = .halt ∧
      ChangesOnly (· = .status) s t ∧ step t = .fault .notRunning

/-- LOADPROG (44_control.md R96, 20_memory.md R48): with 0 in `b` an absolute jump; with an active identifier the
program array becomes an exact copy and the finger is set; else the failure with nothing changed. The target is not
checked (the spec's decision D17); nothing changed is D5. -/
def Obligations.LoadProgramCopiesAndJumps : Prop :=
  ∀ (b c : RegSel) (s : State),
    let id := (s.reg b).toNat
    (s.reg b = 0 →
      ∃ t, exec (.loadprog b c) s = .next t ∧ t.pc = s.reg c ∧ ChangesOnly (· = .pc) s t) ∧
    (s.mem.active id = true →
      ∃ t, exec (.loadprog b c) s = .next t ∧ t.pc = s.reg c ∧ t.mem.size? 0 = s.mem.size? id ∧
        (∀ i, t.mem.read 0 i = s.mem.read id i) ∧
        ChangesOnly (fun p => p = .pc ∨ Part.ofArray 0 p) s t) ∧
    (s.reg b ≠ 0 → s.mem.active id = false →
      ∃ t, exec (.loadprog b c) s = .next t ∧ t.status = .failed .invalidLoad ∧ ChangesOnly (· = .status) s t)

/-- Copy, not alias (10_state.md R38): a Load Program of array `id` leaves the program array with exactly the words
of that array, and the array active, as it was and writable; and in whatever state, then or later, no Array Amendment of
the one changes the other. -/
def Obligations.LoadedProgramAndItsArrayAreSeparate : Prop :=
  ∀ (b c : RegSel) (s t : State), s.mem.active (s.reg b).toNat = true → exec (.loadprog b c) s = .next t →
    let id := (s.reg b).toNat
    t.mem.size? 0 = s.mem.size? id ∧ (∀ i, t.mem.read 0 i = s.mem.read id i) ∧
    t.mem.active id = true ∧ t.mem.size? id = s.mem.size? id ∧ (∀ i, t.mem.read id i = s.mem.read id i) ∧
    (∀ i v, t.mem.inBounds id i → ∃ m, t.mem.write id i v = .ok m ∧ m.read id i = .ok v) ∧
    ∀ (x y z : RegSel) (u v : State), exec (.amend x y z) u = .next v →
      ((u.reg x).toNat = id → v.mem.size? 0 = u.mem.size? 0 ∧ ∀ i, v.mem.read 0 i = u.mem.read 0 i) ∧
      (u.reg x = 0 → v.mem.size? id = u.mem.size? id ∧ ∀ i, v.mem.read id i = u.mem.read id i)

/-- Fetch sees writes at once (20_memory.md R57, 70_reset_and_hazards.md R127, which the spec marks as derived): when a
step amends the word right after it in the program array, the very next step runs the word just written. -/
def Obligations.AmendedProgramWordIsFetchedNext : Prop :=
  ∀ (s : State) (w : Word) (a b c : RegSel), s.status = .running → s.fetches w → decode w = .amend a b c →
    s.reg a = 0 → s.reg b = s.pc + 1 → (s.pc + 1).toNat < s.mem.program.length →
    ∃ t, step s = .next t ∧ t.fetches (s.reg c) ∧ step t = exec (decode (s.reg c)) t.advance

/-! ## Byte channels -/

/-- OUTPUT (45_io.md R99): a value of at most 255 is sent as that byte; a greater one fails and nothing is sent; no
register changes. -/
def Obligations.OutputSendsTheByteOrFails : Prop :=
  (∀ w : Word, bits w 31 28 = 10 → decode w = .output (selector w 0)) ∧
  ∀ (c : RegSel) (s : State),
    ((s.reg c).toNat ≤ 255 →
      ∃ t v, exec (.output c) s = .next t ∧ t.output = s.output ++ [v] ∧ v.toNat = (s.reg c).toNat ∧
        ChangesOnly (· = .output) s t) ∧
    (255 < (s.reg c).toNat →
      ∃ t, exec (.output c) s = .next t ∧ t.status = .failed .invalidOutput ∧ t.output = s.output ∧
        ∀ r, t.reg r = s.reg r)

/-- INPUT with a response (45_io.md R100): the response is taken; a byte is written zero-extended, end of stream and
a read error leave the register and cannot be told apart. -/
def Obligations.InputWritesAByteOrLeavesTheRegister : Prop :=
  (∀ w : Word, bits w 31 28 = 11 → decode w = .input (selector w 0)) ∧
  ∀ (c : RegSel) (s : State) (rest : List InputResponse),
    (∀ v, s.input = .byte v :: rest →
      ∃ t, exec (.input c) s = .next t ∧ (t.reg c).toNat = v.toNat ∧ t.input = rest ∧
        ChangesOnly (fun p => p = .reg c ∨ p = .input) s t) ∧
    (s.input = .endOfStream :: rest ∨ s.input = .readError :: rest →
      ∃ t, exec (.input c) s = .next t ∧ t.input = rest ∧ ChangesOnly (· = .input) s t)

/-- INPUT without a response (45_io.md R98, 60_exceptions.md R117, 70_reset_and_hazards.md R129): the step holds every
piece of state and returns no result until an answer comes, which lifts it. That the wait is a step to the same state
is the model's choice (log entry 3). -/
def Obligations.InputHoldsUntilAnswered : Prop :=
  ∀ s : State, s.waitsForInput = true →
    step s = .next s ∧ s.stepResult = none ∧
    ∀ r, (s.answer r).waitsForInput = false ∧
      ∃ t, step (s.answer r) = .next t ∧ t.pc = s.pc + 1 ∧ t.input = [] ∧
        (s.answer r).stepResult = some .continue

/-! ## Whole-machine rules -/

/-- The allocator moves by Allocation alone, by exactly 1 (10_state.md R24, R28; R28 is marked as derived). -/
def Obligations.OnlyAllocationMovesTheAllocator : Prop :=
  ∀ s t : State, step s = .next t →
    t.nextId = s.nextId ∨ (t.nextId = s.nextId + 1 ∧ ∃ w, s.fetches w ∧ bits w 31 28 = 8)

/-- No reuse (10_state.md R25, 20_memory.md R54; R25 is marked as derived): an identifier that has been issued and is
inactive stays inactive in every state a run comes to, and the allocator never goes back. -/
def Obligations.RetiredIdentifiersStayRetired : Prop :=
  ∀ (s t : State) (id : Nat), Reaches s t → id < s.nextId → s.mem.active id = false →
    s.nextId ≤ t.nextId ∧ t.mem.active id = false

/-- The size of a heap array is fixed, and only its own Abandonment takes it away (10_state.md R22, R23, R36 point 4;
the spec marks R36 as derived). -/
def Obligations.HeapArraysKeepTheirSizeUntilAbandoned : Prop :=
  ∀ (s t : State) (id n : Nat), s.Inv → step s = .next t → id ≠ 0 → s.mem.size? id = some n →
    t.mem.size? id = some n ∨
    (t.mem.size? id = none ∧ ∃ w c, s.fetches w ∧ decode w = .abandon c ∧ (s.reg c).toNat = id)

/-- What changes a word (10_state.md R21, R22; R21's length limit is the spec's decision D3): a heap word changes only
by Array Amendment of its array, a program word only by Array Amendment with 0 or by Load Program. -/
def Obligations.WordsChangeOnlyByAmendmentOrLoad : Prop :=
  ∀ (i : Instr) (s t : State) (id k : Nat) (v v' : Word), s.Inv → exec i s = .next t →
    s.mem.read id k = .ok v → t.mem.read id k = .ok v' → v' ≠ v →
    (∃ a b c, i = .amend a b c ∧ (s.reg a).toNat = id ∧ (s.reg b).toNat = k ∧ s.reg c = v') ∨
    (id = 0 ∧ ∃ b c, i = .loadprog b c ∧ s.reg b ≠ 0)

/-- The channels keep their order along a run (45_io.md R97, R98, the spec's decisions D12 and D13). One step takes one
response from the front exactly when it runs Input and one is there, and adds one byte at the end or none. In a run the
responses there at its start and then those of the stream, as many as the run has asked for, are taken in that order:
what is left is the end of that list. No byte once sent is ever taken back. -/
def Obligations.ChannelsKeepTheirOrderAlongARun : Prop :=
  (∀ s t : State, step s = .next t →
    (t.input = s.input ∨ ∃ w r, s.fetches w ∧ bits w 31 28 = 11 ∧ s.input = r :: t.input) ∧
    (∀ w, s.fetches w → bits w 31 28 = 11 → t.input = s.input.tail) ∧
    (t.output = s.output ∨ ∃ w v, s.fetches w ∧ bits w 31 28 = 10 ∧ t.output = s.output ++ [v])) ∧
  (∀ (env : InputStream) (s : State) (n : Nat),
    let p := runAfter env s n
    (env.take p.asked).length = p.asked ∧ ∃ taken, s.input ++ env.take p.asked = taken ++ p.state.input) ∧
  (∀ s t : State, Reaches s t → ∃ sent, t.output = s.output ++ sent)

/-- What has been sent and what has not been asked for never influence a step (00_scope.md R13, 45_io.md R98: one
response per request; R14 is marked as derived): more responses behind those already there change no step, but the one
that waits for a response. -/
def Obligations.SentBytesAndLaterResponsesHaveNoInfluence : Prop :=
  ∀ s t : State, step s = .next t →
    (∀ out, ∃ sent, t.output = s.output ++ sent ∧
      step { s with output := out } = .next { t with output := out ++ sent }) ∧
    (∀ later, s.waitsForInput = false →
      step { s with input := s.input ++ later } = .next { t with input := t.input ++ later })

/-- The canonical form does its work (log entry 8): two memories in it, whose heaps have no key 0, are equal as soon as
every array has the same length and every read the same answer. -/
def Obligations.CanonicalMemoriesThatReadAlikeAreEqual : Prop :=
  ∀ m m' : Memory, m.wf → m'.wf → (∀ e ∈ m.heap, e.1 ≠ 0) → (∀ e ∈ m'.heap, e.1 ≠ 0) →
    (∀ id, m.size? id = m'.size? id) → (∀ id i, m.read id i = m'.read id i) → m = m'

/-- DIAG (60_exceptions.md R116, its availability at any time being the spec's decision D16): the finger, the word there
exactly when the finger is in bounds, that word decoded, and every register. -/
def Obligations.DiagShowsTheFingerItsWordAndTheRegisters : Prop :=
  ∀ s : State,
    s.diag.pc = s.pc ∧ (∀ w, s.diag.word = some w ↔ s.fetches w) ∧
    (s.diag.word = none ↔ s.mem.program.length ≤ s.pc.toNat) ∧
    s.diag.decoded = s.diag.word.map decode ∧ ∀ r : RegSel, s.diag.regs[r] = s.reg r

/-! ## Runs -/

/-- The end of a run (70_reset_and_hazards.md R131): from every running state, so from every loaded image, and with every
finite or infinite input stream, a run ends in exactly one of the five ways. A wait in Input is the held step of log
entry 3; the two model faults are the spec's decisions D9 and D10, the blocked end D12. -/
def Obligations.EveryRunEndsInExactlyOneWay : Prop :=
  ∀ (env : InputStream) (s : State), s.status = .running → ∃! kind, EndsIn env s kind

/-- Observation and determinism (70_reset_and_hazards.md R132, 00_scope.md R14, both marked as derived): a run has exactly
one observation, and under R132's premises its end is Halt, Fail or divergence, with a final state unless it diverges. -/
def Obligations.EveryRunHasExactlyOneObservation : Prop :=
  ∀ (env : InputStream) (s : State), s.status = .running →
    (∃! o, Observes env s o) ∧
    ∀ o, Observes env s o → ClaimPremises env s →
      (o.kind = .divergence ∧ o.final = none) ∨
      ((o.kind = .halt ∨ ∃ kind, o.kind = .fail kind) ∧ ∃ f, o.final = some f)

/-- Responses given on request and responses queued at the load make the same run (45_io.md R98; that the state holds a
queue is the model's choice, log entry 2): with the first `m` responses queued and no environment, the machine stands
after `n` steps where the run stands, with the responses left over queued, if the run has asked for no more than `m`. -/
def Obligations.QueuedResponsesGiveTheRunOfTheStream : Prop :=
  ∀ (env : InputStream) (s : State) (n m : Nat), s.input = [] → (runAfter env s n).asked ≤ m →
    (runAfter (.finite []) { s with input := env.take m } n).state =
      { (runAfter env s n).state with input := (env.take m).drop (runAfter env s n).asked }
end

