-- ==== Sys2Proof/Laws/Decode.lean ====
section
/-! SUPPORT. The decoder's bit fields read as 00_scope.md R7 reads a field, and the words of the encoder field by
field. -/

namespace Sys2Proof

theorem opcodeField_toNat (w : Word) : (opcodeField w).toNat = bits w 31 28 := by
  simp [opcodeField, bits, Nat.shiftRight_eq_div_pow]

theorem opcodeField_toFin (w : Word) : (opcodeField w).toFin = Fin.ofNat 16 (bits w 31 28) := by
  apply Fin.ext
  show (opcodeField w).toNat = bits w 31 28 % 16
  rw [opcodeField_toNat, Nat.mod_eq_of_lt]
  exact Nat.mod_lt _ (by decide)

theorem fieldA_eq (w : Word) : fieldA w = selector w 6 := by
  apply Fin.ext; simp [fieldA, selector, bits, Nat.shiftRight_eq_div_pow]

theorem fieldB_eq (w : Word) : fieldB w = selector w 3 := by
  apply Fin.ext; simp [fieldB, selector, bits, Nat.shiftRight_eq_div_pow]

theorem fieldC_eq (w : Word) : fieldC w = selector w 0 := by
  apply Fin.ext; simp [fieldC, selector, bits]

theorem fieldOrthoA_eq (w : Word) : fieldOrthoA w = selector w 25 := by
  apply Fin.ext; simp [fieldOrthoA, selector, bits, Nat.shiftRight_eq_div_pow]

theorem fieldImm_eq (w : Word) : fieldImm w = BitVec.ofNat 25 (bits w 24 0) := by
  apply BitVec.eq_of_toNat_eq; simp [fieldImm, bits]

/-- The opcode is one of sixteen. -/
theorem bits_opcode_lt (w : Word) : bits w 31 28 < 16 := Nat.mod_lt _ (by decide)

theorem bits_encS_selector (op : Nat) (a b c : RegSel) :
    selector (encS op a b c) 6 = a ∧ selector (encS op a b c) 3 = b ∧ selector (encS op a b c) 0 = c := by
  have ha := a.isLt; have hb := b.isLt; have hc := c.isLt
  refine ⟨?_, ?_, ?_⟩ <;> apply Fin.ext <;>
    simp only [selector, bits, encS, u32, BitVec.toNat_ofNat, Fin.val_ofNat] <;> omega

theorem bits_encI_fields (a : RegSel) (imm : BitVec 25) :
    selector (encI a imm) 25 = a ∧ bits (encI a imm) 24 0 = imm.toNat := by
  have ha := a.isLt; have himm := imm.isLt
  refine ⟨?_, ?_⟩
  · apply Fin.ext
    simp only [selector, bits, encI, u32, BitVec.toNat_ofNat, Fin.val_ofNat]
    omega
  · simp only [bits, encI, u32, BitVec.toNat_ofNat]
    omega

end Sys2Proof
end

