-- ==== Sys2Proof/Laws/State.lean ====
section
/-! SUPPORT. One lemma per field of `State` and per update of it, true by definition, so that no proof unfolds a record
update; and what a register reads after a register write. -/

namespace Sys2Proof.Machine

/-! ## Register reads -/

@[simp] theorem State.reg_setReg_self (s : State) (r : RegSel) (v : Word) : (s.setReg r v).reg r = v := by
  simp [State.reg, State.setReg]

theorem State.reg_setReg_of_ne (s : State) {r q : RegSel} (v : Word) (h : q ≠ r) :
    (s.setReg r v).reg q = s.reg q := by
  have hval : r.val ≠ q.val := fun e => h (Fin.ext e.symm)
  simp [State.reg, State.setReg, hval]

theorem State.reg_setReg (s : State) (r q : RegSel) (v : Word) :
    (s.setReg r v).reg q = if q = r then v else s.reg q := by
  split
  · next h => rw [h, State.reg_setReg_self]
  · next h => exact State.reg_setReg_of_ne s v h

@[simp] theorem State.reset_reg (r : RegSel) : State.reset.reg r = 0 := by
  simp [State.reg, State.reset]

/-! ## setReg -/

@[simp] theorem State.setReg_regs (s : State) (r : RegSel) (v : Word) : (s.setReg r v).regs = s.regs.set r v := rfl
@[simp] theorem State.setReg_pc (s : State) (r : RegSel) (v : Word) : (s.setReg r v).pc = s.pc := rfl
@[simp] theorem State.setReg_mem (s : State) (r : RegSel) (v : Word) : (s.setReg r v).mem = s.mem := rfl
@[simp] theorem State.setReg_nextId (s : State) (r : RegSel) (v : Word) : (s.setReg r v).nextId = s.nextId := rfl
@[simp] theorem State.setReg_status (s : State) (r : RegSel) (v : Word) : (s.setReg r v).status = s.status := rfl
@[simp] theorem State.setReg_input (s : State) (r : RegSel) (v : Word) : (s.setReg r v).input = s.input := rfl
@[simp] theorem State.setReg_output (s : State) (r : RegSel) (v : Word) : (s.setReg r v).output = s.output := rfl

/-! ## setPc -/

@[simp] theorem State.setPc_reg (s : State) (t : Word) (q : RegSel) : (s.setPc t).reg q = s.reg q := rfl
@[simp] theorem State.setPc_regs (s : State) (t : Word) : (s.setPc t).regs = s.regs := rfl
@[simp] theorem State.setPc_pc (s : State) (t : Word) : (s.setPc t).pc = t := rfl
@[simp] theorem State.setPc_mem (s : State) (t : Word) : (s.setPc t).mem = s.mem := rfl
@[simp] theorem State.setPc_nextId (s : State) (t : Word) : (s.setPc t).nextId = s.nextId := rfl
@[simp] theorem State.setPc_status (s : State) (t : Word) : (s.setPc t).status = s.status := rfl
@[simp] theorem State.setPc_input (s : State) (t : Word) : (s.setPc t).input = s.input := rfl
@[simp] theorem State.setPc_output (s : State) (t : Word) : (s.setPc t).output = s.output := rfl

/-! ## advance -/

@[simp] theorem State.advance_reg (s : State) (q : RegSel) : (s.advance).reg q = s.reg q := rfl
@[simp] theorem State.advance_regs (s : State) : (s.advance).regs = s.regs := rfl
@[simp] theorem State.advance_pc (s : State) : (s.advance).pc = s.pc + 1 := rfl
@[simp] theorem State.advance_mem (s : State) : (s.advance).mem = s.mem := rfl
@[simp] theorem State.advance_nextId (s : State) : (s.advance).nextId = s.nextId := rfl
@[simp] theorem State.advance_status (s : State) : (s.advance).status = s.status := rfl
@[simp] theorem State.advance_input (s : State) : (s.advance).input = s.input := rfl
@[simp] theorem State.advance_output (s : State) : (s.advance).output = s.output := rfl

/-! ## setMem -/

@[simp] theorem State.setMem_reg (s : State) (m : Memory) (q : RegSel) : (s.setMem m).reg q = s.reg q := rfl
@[simp] theorem State.setMem_regs (s : State) (m : Memory) : (s.setMem m).regs = s.regs := rfl
@[simp] theorem State.setMem_pc (s : State) (m : Memory) : (s.setMem m).pc = s.pc := rfl
@[simp] theorem State.setMem_mem (s : State) (m : Memory) : (s.setMem m).mem = m := rfl
@[simp] theorem State.setMem_nextId (s : State) (m : Memory) : (s.setMem m).nextId = s.nextId := rfl
@[simp] theorem State.setMem_status (s : State) (m : Memory) : (s.setMem m).status = s.status := rfl
@[simp] theorem State.setMem_input (s : State) (m : Memory) : (s.setMem m).input = s.input := rfl
@[simp] theorem State.setMem_output (s : State) (m : Memory) : (s.setMem m).output = s.output := rfl

/-! ## halt -/

@[simp] theorem State.halt_reg (s : State) (q : RegSel) : (s.halt).reg q = s.reg q := rfl
@[simp] theorem State.halt_regs (s : State) : (s.halt).regs = s.regs := rfl
@[simp] theorem State.halt_pc (s : State) : (s.halt).pc = s.pc := rfl
@[simp] theorem State.halt_mem (s : State) : (s.halt).mem = s.mem := rfl
@[simp] theorem State.halt_nextId (s : State) : (s.halt).nextId = s.nextId := rfl
@[simp] theorem State.halt_status (s : State) : (s.halt).status = .halted := rfl
@[simp] theorem State.halt_input (s : State) : (s.halt).input = s.input := rfl
@[simp] theorem State.halt_output (s : State) : (s.halt).output = s.output := rfl

/-! ## raise -/

@[simp] theorem State.raise_reg (s : State) (k : Failure) (q : RegSel) : (s.raise k).reg q = s.reg q := rfl
@[simp] theorem State.raise_regs (s : State) (k : Failure) : (s.raise k).regs = s.regs := rfl
@[simp] theorem State.raise_pc (s : State) (k : Failure) : (s.raise k).pc = s.pc := rfl
@[simp] theorem State.raise_mem (s : State) (k : Failure) : (s.raise k).mem = s.mem := rfl
@[simp] theorem State.raise_nextId (s : State) (k : Failure) : (s.raise k).nextId = s.nextId := rfl
@[simp] theorem State.raise_status (s : State) (k : Failure) : (s.raise k).status = .failed k := rfl
@[simp] theorem State.raise_input (s : State) (k : Failure) : (s.raise k).input = s.input := rfl
@[simp] theorem State.raise_output (s : State) (k : Failure) : (s.raise k).output = s.output := rfl

/-! ## outByte -/

@[simp] theorem State.outByte_reg (s : State) (v : Byte) (q : RegSel) : (s.outByte v).reg q = s.reg q := rfl
@[simp] theorem State.outByte_regs (s : State) (v : Byte) : (s.outByte v).regs = s.regs := rfl
@[simp] theorem State.outByte_pc (s : State) (v : Byte) : (s.outByte v).pc = s.pc := rfl
@[simp] theorem State.outByte_mem (s : State) (v : Byte) : (s.outByte v).mem = s.mem := rfl
@[simp] theorem State.outByte_nextId (s : State) (v : Byte) : (s.outByte v).nextId = s.nextId := rfl
@[simp] theorem State.outByte_status (s : State) (v : Byte) : (s.outByte v).status = s.status := rfl
@[simp] theorem State.outByte_input (s : State) (v : Byte) : (s.outByte v).input = s.input := rfl
@[simp] theorem State.outByte_output (s : State) (v : Byte) : (s.outByte v).output = s.output ++ [v] := rfl

/-! ## takeResponse -/

@[simp] theorem State.takeResponse_reg (s : State) (q : RegSel) : (s.takeResponse).reg q = s.reg q := rfl
@[simp] theorem State.takeResponse_regs (s : State) : (s.takeResponse).regs = s.regs := rfl
@[simp] theorem State.takeResponse_pc (s : State) : (s.takeResponse).pc = s.pc := rfl
@[simp] theorem State.takeResponse_mem (s : State) : (s.takeResponse).mem = s.mem := rfl
@[simp] theorem State.takeResponse_nextId (s : State) : (s.takeResponse).nextId = s.nextId := rfl
@[simp] theorem State.takeResponse_status (s : State) : (s.takeResponse).status = s.status := rfl
@[simp] theorem State.takeResponse_input (s : State) : (s.takeResponse).input = s.input.tail := rfl
@[simp] theorem State.takeResponse_output (s : State) : (s.takeResponse).output = s.output := rfl

/-! ## hold -/

@[simp] theorem State.hold_reg (s : State) (q : RegSel) : (s.hold).reg q = s.reg q := rfl
@[simp] theorem State.hold_regs (s : State) : (s.hold).regs = s.regs := rfl
@[simp] theorem State.hold_pc (s : State) : (s.hold).pc = s.pc - 1 := rfl
@[simp] theorem State.hold_mem (s : State) : (s.hold).mem = s.mem := rfl
@[simp] theorem State.hold_nextId (s : State) : (s.hold).nextId = s.nextId := rfl
@[simp] theorem State.hold_status (s : State) : (s.hold).status = s.status := rfl
@[simp] theorem State.hold_input (s : State) : (s.hold).input = s.input := rfl
@[simp] theorem State.hold_output (s : State) : (s.hold).output = s.output := rfl

/-! ## answer -/

@[simp] theorem State.answer_reg (s : State) (r : InputResponse) (q : RegSel) : (s.answer r).reg q = s.reg q := rfl
@[simp] theorem State.answer_regs (s : State) (r : InputResponse) : (s.answer r).regs = s.regs := rfl
@[simp] theorem State.answer_pc (s : State) (r : InputResponse) : (s.answer r).pc = s.pc := rfl
@[simp] theorem State.answer_mem (s : State) (r : InputResponse) : (s.answer r).mem = s.mem := rfl
@[simp] theorem State.answer_nextId (s : State) (r : InputResponse) : (s.answer r).nextId = s.nextId := rfl
@[simp] theorem State.answer_status (s : State) (r : InputResponse) : (s.answer r).status = s.status := rfl
@[simp] theorem State.answer_input (s : State) (r : InputResponse) : (s.answer r).input = s.input ++ [r] := rfl
@[simp] theorem State.answer_output (s : State) (r : InputResponse) : (s.answer r).output = s.output := rfl

end Sys2Proof.Machine
end

