-- ==== Sys2Proof/Laws/Memory.lean ====
section
/-! SUPPORT. The laws of the keyed lists, of word arrays and of the memory controller: read after write, everything
else unchanged, the canonical form kept, and for each operation what it answers. -/

namespace Sys2Proof.Machine

/-! ## Keyed lists -/

section Keyed
variable {α : Type}

@[simp] theorem lookup_insertKey_self (k : Nat) (v : α) (l : List (Nat × α)) :
    lookup k (insertKey k v l) = some v := by
  induction l with
  | nil => simp [insertKey, lookup]
  | cons p l ih =>
    obtain ⟨j, u⟩ := p
    simp only [insertKey]
    split
    · simp [lookup]
    · split
      · simp [lookup]
      · next hne => simp [lookup, Ne.symm hne, ih]

theorem lookup_insertKey_of_ne {k q : Nat} (v : α) (l : List (Nat × α)) (h : q ≠ k) :
    lookup q (insertKey k v l) = lookup q l := by
  induction l with
  | nil => simp [insertKey, lookup, Ne.symm h]
  | cons p l ih =>
    obtain ⟨j, u⟩ := p
    simp only [insertKey]
    split
    · simp [lookup, Ne.symm h]
    · split
      · next hkj => subst hkj; simp [lookup, Ne.symm h]
      · simp [lookup, ih]

@[simp] theorem lookup_eraseKey_self (k : Nat) (l : List (Nat × α)) : lookup k (eraseKey k l) = none := by
  induction l with
  | nil => rfl
  | cons p l ih =>
    obtain ⟨j, u⟩ := p
    simp only [eraseKey]
    split
    · exact ih
    · next hne => simp [lookup, hne, ih]

theorem lookup_eraseKey_of_ne {k q : Nat} (l : List (Nat × α)) (h : q ≠ k) :
    lookup q (eraseKey k l) = lookup q l := by
  induction l with
  | nil => rfl
  | cons p l ih =>
    obtain ⟨j, u⟩ := p
    simp only [eraseKey]
    split
    · next hjk => subst hjk; simp [lookup, Ne.symm h, ih]
    · simp [lookup, ih]

/-- A key that is looked up is listed. -/
theorem mem_of_lookup {k : Nat} {v : α} {l : List (Nat × α)} (h : lookup k l = some v) : (k, v) ∈ l := by
  induction l with
  | nil => simp [lookup] at h
  | cons p l ih =>
    obtain ⟨j, u⟩ := p
    simp only [lookup] at h
    split at h
    · next hjk => simp_all
    · exact List.mem_cons_of_mem _ (ih h)

/-- No key listed, nothing found. -/
theorem lookup_eq_none {k : Nat} {l : List (Nat × α)} (h : ∀ e ∈ l, e.1 ≠ k) : lookup k l = none := by
  rw [← Option.not_isSome_iff_eq_none, Option.isSome_iff_exists]
  rintro ⟨v, hv⟩
  exact h _ (mem_of_lookup hv) rfl

/-- Where keys rise, what is listed is found. -/
theorem lookup_of_mem {k : Nat} {v : α} {l : List (Nat × α)} (hl : Rising l) (h : (k, v) ∈ l) :
    lookup k l = some v := by
  induction l with
  | nil => simp at h
  | cons p l ih =>
    obtain ⟨j, u⟩ := p
    obtain ⟨hhead, htail⟩ := List.pairwise_cons.1 hl
    rcases List.mem_cons.1 h with heq | hmem
    · simp_all [lookup]
    · have hlt : j < k := hhead _ hmem
      simp [lookup, Nat.ne_of_lt hlt, ih htail hmem]

theorem mem_insertKey {k : Nat} {v : α} {l : List (Nat × α)} {e : Nat × α} (h : e ∈ insertKey k v l) :
    e = (k, v) ∨ e ∈ l := by
  induction l with
  | nil => simpa [insertKey] using h
  | cons p l ih =>
    obtain ⟨j, u⟩ := p
    simp only [insertKey] at h
    split at h
    · simpa using h
    · split at h
      · rcases List.mem_cons.1 h with h | h
        · exact .inl h
        · exact .inr (List.mem_cons_of_mem _ h)
      · rcases List.mem_cons.1 h with h | h
        · exact .inr (h ▸ List.mem_cons_self)
        · exact (ih h).imp id (List.mem_cons_of_mem _)

theorem mem_eraseKey {k : Nat} {l : List (Nat × α)} {e : Nat × α} (h : e ∈ eraseKey k l) : e ∈ l := by
  induction l with
  | nil => simp [eraseKey] at h
  | cons p l ih =>
    obtain ⟨j, u⟩ := p
    simp only [eraseKey] at h
    split at h
    · exact List.mem_cons_of_mem _ (ih h)
    · rcases List.mem_cons.1 h with h | h
      · exact h ▸ List.mem_cons_self
      · exact List.mem_cons_of_mem _ (ih h)

theorem rising_insertKey (k : Nat) (v : α) {l : List (Nat × α)} (hl : Rising l) : Rising (insertKey k v l) := by
  induction l with
  | nil => simp [insertKey, Rising]
  | cons p l ih =>
    obtain ⟨j, u⟩ := p
    obtain ⟨hhead, htail⟩ := List.pairwise_cons.1 hl
    simp only [insertKey]
    split
    · next hkj =>
      refine List.pairwise_cons.2 ⟨fun e he => ?_, hl⟩
      rcases List.mem_cons.1 he with he | he
      · simpa [he] using hkj
      · exact Nat.lt_trans hkj (hhead _ he)
    · split
      · next hkj => exact List.pairwise_cons.2 ⟨fun e he => hkj ▸ hhead e he, htail⟩
      · refine List.pairwise_cons.2 ⟨fun e he => ?_, ih htail⟩
        rcases mem_insertKey he with he | he
        · subst he; show j < k; omega
        · exact hhead _ he

theorem rising_eraseKey (k : Nat) {l : List (Nat × α)} (hl : Rising l) : Rising (eraseKey k l) := by
  induction l with
  | nil => exact hl
  | cons p l ih =>
    obtain ⟨j, u⟩ := p
    obtain ⟨hhead, htail⟩ := List.pairwise_cons.1 hl
    simp only [eraseKey]
    split
    · exact ih htail
    · exact List.pairwise_cons.2 ⟨fun e he => hhead e (mem_eraseKey he), ih htail⟩

/-- In canonical form the list is settled by what is found in it. -/
theorem rising_ext {l l' : List (Nat × α)} (hl : Rising l) (hl' : Rising l')
    (h : ∀ k, lookup k l = lookup k l') : l = l' := by
  have hmem : ∀ e, e ∈ l ↔ e ∈ l' := fun e =>
    ⟨fun he => mem_of_lookup (h e.1 ▸ lookup_of_mem hl he), fun he => mem_of_lookup (h e.1 ▸ lookup_of_mem hl' he)⟩
  have nodup : ∀ {m : List (Nat × α)}, Rising m → m.Nodup := fun hm =>
    List.Pairwise.imp (fun hlt heq => by rw [heq] at hlt; exact Nat.lt_irrefl _ hlt) hm
  refine List.Perm.eq_of_pairwise (le := fun p q => p.1 < q.1) ?_ hl hl'
    ((List.perm_ext_iff_of_nodup (nodup hl) (nodup hl')).2 hmem)
  intro a b _ _ hab hba
  exact absurd (Nat.lt_trans hab hba) (Nat.lt_irrefl _)

end Keyed

/-! ## Word arrays -/

@[simp] theorem WordArray.set_length (a : WordArray) (i : Nat) (v : Word) : (a.set i v).length = a.length := rfl

@[simp] theorem WordArray.zeros_length (n : Nat) : (WordArray.zeros n).length = n := rfl

@[simp] theorem WordArray.ofWords_length (ws : List Word) : (WordArray.ofWords ws).length = ws.length := rfl

theorem WordArray.get?_eq_none {a : WordArray} {i : Nat} : a.get? i = none ↔ a.length ≤ i := by
  simp [WordArray.get?]

theorem WordArray.get?_set_self {a : WordArray} {i : Nat} (v : Word) (h : i < a.length) :
    (a.set i v).get? i = some v := by
  simp only [WordArray.get?, WordArray.set, h, if_true]
  split
  · next hv => simp [hv]
  · simp

theorem WordArray.get?_set_of_ne (a : WordArray) {i q : Nat} (v : Word) (h : q ≠ i) :
    (a.set i v).get? q = a.get? q := by
  have hcells : lookup q (a.set i v).cells = lookup q a.cells := by
    by_cases hv : v = unlistedWord
    · simp only [WordArray.set, hv, if_true, lookup_eraseKey_of_ne _ h]
    · simp only [WordArray.set, hv, if_false, lookup_insertKey_of_ne _ _ h]
  simp only [WordArray.get?, WordArray.set_length, hcells]

theorem WordArray.get?_zeros (n i : Nat) : (WordArray.zeros n).get? i = if i < n then some 0 else none := by
  simp [WordArray.get?, WordArray.zeros, lookup, unlistedWord]

theorem WordArray.wf_zeros (n : Nat) : (WordArray.zeros n).wf := by
  simp [WordArray.wf, WordArray.zeros, Rising]

/-- A write inside the array keeps the canonical form. -/
theorem WordArray.wf_set {a : WordArray} {i : Nat} (v : Word) (ha : a.wf) (hi : i < a.length) : (a.set i v).wf := by
  obtain ⟨hr, hc⟩ := ha
  simp only [WordArray.wf, WordArray.set]
  split
  · exact ⟨rising_eraseKey i hr, fun c h => hc c (mem_eraseKey h)⟩
  · next hv =>
    refine ⟨rising_insertKey i v hr, fun c h => ?_⟩
    rcases mem_insertKey h with h | h
    · subst h; exact ⟨hi, hv⟩
    · exact hc c h

theorem mem_cellsFrom {ws : List Word} : ∀ {i : Nat} {e : Nat × Word}, e ∈ cellsFrom i ws →
    i ≤ e.1 ∧ e.1 < i + ws.length ∧ e.2 ≠ unlistedWord := by
  induction ws with
  | nil => intro i e h; simp [cellsFrom] at h
  | cons w ws ih =>
    intro i e h
    simp only [cellsFrom] at h
    split at h
    · obtain ⟨hlo, hhi, hne⟩ := ih h
      rw [List.length_cons]
      exact ⟨by omega, by omega, hne⟩
    · next hw =>
      rcases List.mem_cons.1 h with h | h
      · subst h; simp [hw]
      · obtain ⟨hlo, hhi, hne⟩ := ih h
        rw [List.length_cons]
        exact ⟨by omega, by omega, hne⟩

theorem rising_cellsFrom (ws : List Word) : ∀ i, Rising (cellsFrom i ws) := by
  induction ws with
  | nil => intro i; simp [cellsFrom, Rising]
  | cons w ws ih =>
    intro i
    simp only [cellsFrom]
    split
    · exact ih _
    · exact List.pairwise_cons.2 ⟨fun e he => (mem_cellsFrom he).1, ih _⟩

theorem lookup_cellsFrom (ws : List Word) : ∀ i k : Nat,
    (lookup (i + k) (cellsFrom i ws)).getD unlistedWord = ws.getD k unlistedWord := by
  induction ws with
  | nil => intro i k; simp [cellsFrom, lookup]
  | cons w ws ih =>
    intro i k
    have skip : ∀ k, (lookup (i + (k + 1)) (cellsFrom (i + 1) ws)).getD unlistedWord = ws.getD k unlistedWord :=
      fun k => by rw [← ih (i + 1) k]; congr 2; omega
    have first : lookup i (cellsFrom (i + 1) ws) = none :=
      lookup_eq_none fun e he => by have := (mem_cellsFrom he).1; omega
    simp only [cellsFrom]
    cases k with
    | zero =>
      split
      · next hw => simp [first, hw]
      · simp [lookup]
    | succ k =>
      split
      · simpa using skip k
      · simpa [lookup] using skip k

/-- An array made of a sequence of words holds that sequence. -/
theorem WordArray.get?_ofWords (ws : List Word) (i : Nat) : (WordArray.ofWords ws).get? i = ws[i]? := by
  have hcells := lookup_cellsFrom ws 0 i
  rw [Nat.zero_add] at hcells
  simp only [WordArray.get?, WordArray.ofWords, hcells]
  by_cases h : i < ws.length
  · simp [h, List.getD]
  · simp [h]

theorem WordArray.wf_ofWords (ws : List Word) : (WordArray.ofWords ws).wf :=
  ⟨rising_cellsFrom ws 0, fun _ he => ⟨by simpa [WordArray.ofWords] using (mem_cellsFrom he).2.1, (mem_cellsFrom he).2.2⟩⟩

/-- Canonical arrays of one length that read alike are equal. -/
theorem WordArray.ext_get? {a b : WordArray} (ha : a.wf) (hb : b.wf) (hlen : a.length = b.length)
    (h : ∀ i, a.get? i = b.get? i) : a = b := by
  have outside : ∀ {c : WordArray}, c.wf → ∀ {k}, ¬ k < c.length → lookup k c.cells = none := fun hc k hk =>
    lookup_eq_none fun e he hek => hk (hek ▸ (hc.2 e he).1)
  have hcells : a.cells = b.cells := by
    refine rising_ext ha.1 hb.1 fun k => ?_
    by_cases hk : k < a.length
    · have hread := h k
      simp only [WordArray.get?, hk, hlen ▸ hk, if_true, Option.some.injEq] at hread
      cases hak : lookup k a.cells <;> cases hbk : lookup k b.cells <;> simp_all
      · exact (hb.2 _ (mem_of_lookup hbk)).2 hread.symm
      · exact (ha.2 _ (mem_of_lookup hak)).2 rfl
    · rw [outside ha hk, outside hb (hlen ▸ hk)]
  cases a; cases b; simp_all

/-! ## The memory controller -/

theorem Memory.array?_zero (m : Memory) : m.array? 0 = some m.program := rfl

theorem Memory.array?_of_ne {m : Memory} {id : Nat} (h : id ≠ 0) : m.array? id = lookup id m.heap := by
  simp [Memory.array?, h]

theorem Memory.active_iff {m : Memory} {id : Nat} : m.active id = true ↔ id ≠ 0 ∧ ∃ a, lookup id m.heap = some a := by
  simp [Memory.active, Option.isSome_iff_exists]

theorem Memory.active_eq_false {m : Memory} {id : Nat} : m.active id = false ↔ id = 0 ∨ lookup id m.heap = none := by
  simp [Memory.active, Decidable.or_iff_not_imp_left]

/-- Activity is having an array, for a nonzero identifier. -/
theorem Memory.active_eq_size {m : Memory} {id : Nat} : m.active id = (id != 0 && (m.size? id).isSome) := by
  by_cases h : id = 0 <;> simp [Memory.active, Memory.size?, Memory.array?, h]

theorem Memory.read_of_array {m : Memory} {id : Nat} {a : WordArray} (h : m.array? id = some a) (i : Nat) :
    m.read id i = (match a.get? i with | none => .error .invalidArrayAccess | some v => .ok v) := by
  cases hg : a.get? i <;> simp [Memory.read, h, hg]

/-- Reads depend on the selected array alone. -/
theorem Memory.read_congr {m m' : Memory} {id id' : Nat} (h : m.array? id = m'.array? id') (i : Nat) :
    m.read id i = m'.read id' i := by simp only [Memory.read, h]

theorem Memory.size?_congr {m m' : Memory} {id id' : Nat} (h : m.array? id = m'.array? id') :
    m.size? id = m'.size? id' := by simp only [Memory.size?, h]

/-- A read answers a word exactly inside the arrays, and otherwise its one failure. -/
theorem Memory.read_cases (m : Memory) (id i : Nat) :
    (m.inBounds id i ∧ ∃ v, m.read id i = .ok v) ∨ (¬ m.inBounds id i ∧ m.read id i = .error .invalidArrayAccess) := by
  simp only [Memory.inBounds, Memory.size?, Memory.read]
  cases h : m.array? id with
  | none => simp
  | some a => by_cases hi : i < a.length <;> simp [WordArray.get?, hi]

@[simp] theorem Memory.array?_setArray_self (m : Memory) (id : Nat) (a : WordArray) :
    (m.setArray id a).array? id = some a := by
  by_cases h : id = 0 <;> simp [Memory.setArray, Memory.array?, h]

theorem Memory.array?_setArray_of_ne (m : Memory) {id q : Nat} (a : WordArray) (h : q ≠ id) :
    (m.setArray id a).array? q = m.array? q := by
  by_cases hid : id = 0
  · subst hid; simp [Memory.setArray, Memory.array?, h]
  · by_cases hq : q = 0
    · simp [Memory.setArray, Memory.array?, hid, hq]
    · simp [Memory.setArray, Memory.array?, hid, hq, lookup_insertKey_of_ne _ _ h]

/-- What a write answers: inside the arrays the memory with one element of the selected array set, else its failure. -/
theorem Memory.write_cases (m : Memory) (id i : Nat) (v : Word) :
    (∃ a, m.array? id = some a ∧ i < a.length ∧ m.inBounds id i ∧ m.write id i v = .ok (m.setArray id (a.set i v))) ∨
    (¬ m.inBounds id i ∧ m.write id i v = .error .invalidArrayAccess) := by
  simp only [Memory.inBounds, Memory.size?, Memory.write]
  cases h : m.array? id with
  | none => simp
  | some a => by_cases hi : i < a.length <;> simp [hi]

/-- What `free` answers. -/
theorem Memory.free_cases (m : Memory) (id : Nat) :
    (m.active id = true ∧ m.free id = .ok { m with heap := eraseKey id m.heap }) ∨
    (m.active id = false ∧ m.free id = .error .invalidArrayAbandonment) := by
  cases h : m.active id <;> simp [Memory.free, h]

/-- What a program replacement answers. -/
theorem Memory.replaceProgram_cases (m : Memory) (id : Nat) :
    (∃ a, lookup id m.heap = some a ∧ m.replaceProgram id = .ok { m with program := a }) ∨
    (lookup id m.heap = none ∧ m.replaceProgram id = .error .invalidLoad) := by
  cases h : lookup id m.heap <;> simp [Memory.replaceProgram, h]

theorem Memory.array?_erase_self {m : Memory} {id : Nat} (h : id ≠ 0) :
    ({ m with heap := eraseKey id m.heap } : Memory).array? id = none := by
  simp [Memory.array?, h]

theorem Memory.array?_erase_of_ne {m : Memory} {id q : Nat} (h : q ≠ id) :
    ({ m with heap := eraseKey id m.heap } : Memory).array? q = m.array? q := by
  by_cases hq : q = 0 <;> simp [Memory.array?, hq, lookup_eraseKey_of_ne _ h]

theorem Memory.array?_insert_self {m : Memory} {id : Nat} (a : WordArray) (h : id ≠ 0) :
    ({ m with heap := insertKey id a m.heap } : Memory).array? id = some a := by
  simp [Memory.array?, h]

theorem Memory.array?_insert_of_ne {m : Memory} {id q : Nat} (a : WordArray) (h : q ≠ id) :
    ({ m with heap := insertKey id a m.heap } : Memory).array? q = m.array? q := by
  by_cases hq : q = 0 <;> simp [Memory.array?, hq, lookup_insertKey_of_ne _ _ h]

theorem Memory.fetchRead_ok {m : Memory} {p : Nat} {w : Word} : m.fetchRead p = .ok w ↔ m.program.get? p = some w := by
  cases h : m.program.get? p <;> simp [Memory.fetchRead, h]

/-- A fetch reads what a read of identifier 0 reads. -/
theorem Memory.fetchRead_ok_iff_read {m : Memory} {p : Nat} {w : Word} :
    m.fetchRead p = .ok w ↔ m.read 0 p = .ok w := by
  rw [Memory.fetchRead_ok, Memory.read_of_array (Memory.array?_zero m)]
  cases m.program.get? p <;> simp

theorem Memory.fetchRead_past {m : Memory} {p : Nat} (h : m.program.length ≤ p) :
    m.fetchRead p = .error .executionFingerOutOfBounds := by
  simp [Memory.fetchRead, WordArray.get?_eq_none.2 h]

/-! ## Every operation keeps the canonical form -/

theorem Memory.wf_insert {m : Memory} {id : Nat} {a : WordArray} (hm : m.wf) (ha : a.wf) :
    ({ m with heap := insertKey id a m.heap } : Memory).wf := by
  obtain ⟨hp, hr, hh⟩ := hm
  refine ⟨hp, rising_insertKey id a hr, fun e he => ?_⟩
  rcases mem_insertKey he with he | he
  · exact he ▸ ha
  · exact hh e he

theorem Memory.wf_erase {m : Memory} {id : Nat} (hm : m.wf) : ({ m with heap := eraseKey id m.heap } : Memory).wf := by
  obtain ⟨hp, hr, hh⟩ := hm
  exact ⟨hp, rising_eraseKey id hr, fun e he => hh e (mem_eraseKey he)⟩

theorem Memory.wf_setArray {m : Memory} {id : Nat} {a : WordArray} (hm : m.wf) (ha : a.wf) : (m.setArray id a).wf := by
  simp only [Memory.setArray]
  split
  · exact ⟨ha, hm.2.1, hm.2.2⟩
  · exact Memory.wf_insert hm ha

/-- In a canonical memory every array is canonical. -/
theorem Memory.wf_array {m : Memory} {id : Nat} {a : WordArray} (hm : m.wf) (h : m.array? id = some a) : a.wf := by
  by_cases hid : id = 0
  · subst hid; cases h; exact hm.1
  · exact hm.2.2 _ (mem_of_lookup (Memory.array?_of_ne hid ▸ h))

/-- A successful write keeps the canonical form. -/
theorem Memory.wf_write {m m' : Memory} {id i : Nat} {v : Word} (hm : m.wf) (h : m.write id i v = .ok m') : m'.wf := by
  rcases m.write_cases id i v with ⟨a, ha, hi, -, hw⟩ | ⟨-, hw⟩ <;> rw [hw] at h
  · cases h; exact Memory.wf_setArray hm (WordArray.wf_set v (Memory.wf_array hm ha) hi)
  · cases h

/-- A successful deactivation keeps the canonical form. -/
theorem Memory.wf_free {m m' : Memory} {id : Nat} (hm : m.wf) (h : m.free id = .ok m') : m'.wf := by
  rcases m.free_cases id with ⟨-, hf⟩ | ⟨-, hf⟩ <;> rw [hf] at h <;> cases h
  exact Memory.wf_erase hm

/-- A successful program replacement keeps the canonical form. -/
theorem Memory.wf_replaceProgram {m m' : Memory} {id : Nat} (hm : m.wf) (h : m.replaceProgram id = .ok m') : m'.wf := by
  rcases m.replaceProgram_cases id with ⟨a, ha, hf⟩ | ⟨-, hf⟩ <;> rw [hf] at h <;> cases h
  exact ⟨hm.2.2 _ (mem_of_lookup ha), hm.2.1, hm.2.2⟩

/-- Reset memory is canonical. -/
theorem State.reset_memWf : State.reset.mem.wf := by
  simp [Memory.wf, WordArray.wf, State.reset, Rising]

end Sys2Proof.Machine
end

