-- ==== Sys2Proof/Laws/Exec.lean ====
section
/-! SUPPORT. One inversion lemma per shared operation of the handlers and per instruction: everything its answer can
be. Later proofs cite these and do not unfold a meaning. -/

namespace Sys2Proof.Machine

/-! ## Shared operations -/

@[simp] theorem State.settle_ok (s t : State) : s.settle (.ok t) = .next t := rfl

@[simp] theorem State.settle_error (s : State) (k : Failure) : s.settle (.error k) = .next (s.raise k) := rfl

/-- What Allocation's primitive answers (20_memory.md R46). -/
theorem State.alloc_cases (s : State) (n : Nat) :
    (2 ^ 32 - 1 < s.nextId ∧ s.alloc n = .error .identifierExhausted) ∨
    (s.nextId ≤ 2 ^ 32 - 1 ∧ Config.maxLiveWords < s.mem.liveWords + n ∧ s.alloc n = .error .resourceExhausted) ∨
    (s.nextId ≤ 2 ^ 32 - 1 ∧ s.mem.liveWords + n ≤ Config.maxLiveWords ∧
      s.alloc n = .ok (u32 s.nextId,
        { s with mem := { s.mem with heap := insertKey s.nextId (.zeros n) s.mem.heap }, nextId := s.nextId + 1 })) := by
  simp only [State.alloc, State.allocWithin, Config.maxIdentifier]
  split
  · next h => exact .inl ⟨h, rfl⟩
  · next h =>
    split
    · next h' => exact .inr (.inl ⟨Nat.le_of_not_lt h, h', rfl⟩)
    · next h' => exact .inr (.inr ⟨Nat.le_of_not_lt h, Nat.le_of_not_lt h', rfl⟩)

/-- A byte operand is there exactly up to 255 (45_io.md R99). -/
theorem byteOperand_cases (v : Word) :
    (255 < v.toNat ∧ byteOperand v = none) ∨ (v.toNat ≤ 255 ∧ byteOperand v = some (v.setWidth 8)) := by
  by_cases h : 255 < v.toNat
  · exact .inl ⟨h, if_pos h⟩
  · exact .inr ⟨Nat.le_of_not_lt h, if_neg h⟩

/-! ## Instructions -/

theorem execCmov_eq (a b c : RegSel) (s : State) :
    exec (.cmov a b c) s = .next (if s.reg c ≠ 0 then s.setReg a (s.reg b) else s) := by
  simp [exec, execCmov, nonzero]

theorem execOrtho_eq (a : RegSel) (imm : BitVec 25) (s : State) :
    exec (.ortho a imm) s = .next (s.setReg a (imm.setWidth 32)) := rfl

theorem execAdd_eq (a b c : RegSel) (s : State) :
    exec (.add a b c) s = .next (s.setReg a (u32 ((s.reg b).toNat + (s.reg c).toNat))) := rfl

theorem execMul_eq (a b c : RegSel) (s : State) :
    exec (.mul a b c) s = .next (s.setReg a (u32 ((s.reg b).toNat * (s.reg c).toNat))) := rfl

theorem execNand_eq (a b c : RegSel) (s : State) :
    exec (.nand a b c) s = .next (s.setReg a (~~~(s.reg b &&& s.reg c))) := rfl

theorem execDiv_cases (a b c : RegSel) (s : State) :
    (s.reg c = 0 ∧ exec (.div a b c) s = .next (s.raise .divideByZero)) ∨
    (s.reg c ≠ 0 ∧ exec (.div a b c) s = .next (s.setReg a (u32 ((s.reg b).toNat / (s.reg c).toNat)))) := by
  by_cases h : s.reg c = 0
  · exact .inl ⟨h, by simp [exec, execDiv, quotient, State.natReg, h, Except.map]⟩
  · have h0 : (s.reg c).toNat ≠ 0 := fun e => h (BitVec.eq_of_toNat_eq (by simpa using e))
    exact .inr ⟨h, by simp [exec, execDiv, quotient, State.natReg, h0, Except.map]⟩

theorem execHalt_eq (s : State) : exec (.halt) s = .next s.halt := rfl

theorem execInvalid_eq (op : Fin 16) (s : State) : exec (.invalid op) s = .next (s.raise .invalidInstruction) := rfl

theorem execIndex_cases (a b c : RegSel) (s : State) :
    (∃ v, s.mem.inBounds (s.reg b).toNat (s.reg c).toNat ∧ s.mem.read (s.reg b).toNat (s.reg c).toNat = .ok v ∧
      exec (.index a b c) s = .next (s.setReg a v)) ∨
    (¬ s.mem.inBounds (s.reg b).toNat (s.reg c).toNat ∧
      exec (.index a b c) s = .next (s.raise .invalidArrayAccess)) := by
  rcases s.mem.read_cases (s.reg b).toNat (s.reg c).toNat with ⟨hin, v, hr⟩ | ⟨hout, hr⟩
  · exact .inl ⟨v, hin, hr, by simp only [exec, execIndex, State.natReg, hr]; rfl⟩
  · exact .inr ⟨hout, by simp only [exec, execIndex, State.natReg, hr]; rfl⟩

theorem execAmend_cases (a b c : RegSel) (s : State) :
    (∃ w, s.mem.array? (s.reg a).toNat = some w ∧ (s.reg b).toNat < w.length ∧
      s.mem.inBounds (s.reg a).toNat (s.reg b).toNat ∧
      exec (.amend a b c) s =         .next (s.setMem (s.mem.setArray (s.reg a).toNat (w.set (s.reg b).toNat (s.reg c))))) ∨
    (¬ s.mem.inBounds (s.reg a).toNat (s.reg b).toNat ∧
      exec (.amend a b c) s = .next (s.raise .invalidArrayAccess)) := by
  rcases s.mem.write_cases (s.reg a).toNat (s.reg b).toNat (s.reg c) with ⟨w, hw, hi, hin, hr⟩ | ⟨hout, hr⟩
  · exact .inl ⟨w, hw, hi, hin, by simp only [exec, execAmend, State.natReg, hr]; rfl⟩
  · exact .inr ⟨hout, by simp only [exec, execAmend, State.natReg, hr]; rfl⟩

theorem execAlloc_cases (b c : RegSel) (s : State) :
    (2 ^ 32 - 1 < s.nextId ∧ exec (.alloc b c) s = .next (s.raise .identifierExhausted)) ∨
    (s.nextId ≤ 2 ^ 32 - 1 ∧ Config.maxLiveWords < s.mem.liveWords + (s.reg c).toNat ∧
      exec (.alloc b c) s = .next (s.raise .resourceExhausted)) ∨
    (s.nextId ≤ 2 ^ 32 - 1 ∧ s.mem.liveWords + (s.reg c).toNat ≤ Config.maxLiveWords ∧
      exec (.alloc b c) s = .next (({ s with
        mem := { s.mem with heap := insertKey s.nextId (.zeros (s.reg c).toNat) s.mem.heap }
        nextId := s.nextId + 1 } : State).setReg b (u32 s.nextId))) := by
  rcases s.alloc_cases (s.reg c).toNat with ⟨h, hr⟩ | ⟨h, h', hr⟩ | ⟨h, h', hr⟩
  · exact .inl ⟨h, by simp only [exec, execAlloc, State.natReg, hr]; rfl⟩
  · exact .inr (.inl ⟨h, h', by simp only [exec, execAlloc, State.natReg, hr]; rfl⟩)
  · exact .inr (.inr ⟨h, h', by simp only [exec, execAlloc, State.natReg, hr]; rfl⟩)

theorem execAbandon_cases (c : RegSel) (s : State) :
    (s.mem.active (s.reg c).toNat = true ∧
      exec (.abandon c) s = .next (s.setMem { s.mem with heap := eraseKey (s.reg c).toNat s.mem.heap })) ∨
    (s.mem.active (s.reg c).toNat = false ∧ exec (.abandon c) s = .next (s.raise .invalidArrayAbandonment)) := by
  rcases s.mem.free_cases (s.reg c).toNat with ⟨h, hr⟩ | ⟨h, hr⟩
  · exact .inl ⟨h, by simp only [exec, execAbandon, State.natReg, hr]; rfl⟩
  · exact .inr ⟨h, by simp only [exec, execAbandon, State.natReg, hr]; rfl⟩

theorem execLoadprog_cases (b c : RegSel) (s : State) :
    (s.reg b = 0 ∧ exec (.loadprog b c) s = .next (s.setPc (s.reg c))) ∨
    (∃ a, s.mem.active (s.reg b).toNat = true ∧ lookup (s.reg b).toNat s.mem.heap = some a ∧
      exec (.loadprog b c) s = .next ((s.setMem { s.mem with program := a }).setPc (s.reg c))) ∨
    (s.reg b ≠ 0 ∧ s.mem.active (s.reg b).toNat = false ∧ exec (.loadprog b c) s = .next (s.raise .invalidLoad)) := by
  by_cases h : s.reg b = 0
  · refine .inl ⟨h, ?_⟩
    simp only [exec, execLoadprog, State.natReg, Memory.loadProgram, h]
    rfl
  · have h0 : (s.reg b).toNat ≠ 0 := fun e => h (BitVec.eq_of_toNat_eq (by simpa using e))
    rcases s.mem.replaceProgram_cases (s.reg b).toNat with ⟨a, ha, hr⟩ | ⟨ha, hr⟩
    · refine .inr (.inl ⟨a, Memory.active_iff.2 ⟨h0, a, ha⟩, ha, ?_⟩)
      simp only [exec, execLoadprog, State.natReg, Memory.loadProgram, h0, if_false, hr]
      rfl
    · refine .inr (.inr ⟨h, Memory.active_eq_false.2 (.inr ha), ?_⟩)
      simp only [exec, execLoadprog, State.natReg, Memory.loadProgram, h0, if_false, hr]
      rfl

theorem execOutput_cases (c : RegSel) (s : State) :
    (255 < (s.reg c).toNat ∧ exec (.output c) s = .next (s.raise .invalidOutput)) ∨
    ((s.reg c).toNat ≤ 255 ∧ exec (.output c) s = .next (s.outByte ((s.reg c).setWidth 8))) := by
  rcases byteOperand_cases (s.reg c) with ⟨h, hr⟩ | ⟨h, hr⟩
  · exact .inl ⟨h, by simp only [exec, execOutput, hr]; rfl⟩
  · exact .inr ⟨h, by simp only [exec, execOutput, hr]; rfl⟩

theorem execInput_cases (c : RegSel) (s : State) :
    (s.input = [] ∧ exec (.input c) s = .next s.hold) ∨
    (∃ r rest, s.input = r :: rest ∧ exec (.input c) s = .next (s.takeResponse.receive c r)) := by
  cases h : s.input with
  | nil => exact .inl ⟨rfl, by simp only [exec, execInput, h]; rfl⟩
  | cons r rest => exact .inr ⟨r, rest, rfl, by simp only [exec, execInput, h]; rfl⟩

/-- Every instruction answers a next state, in every state: none stops the model. -/
theorem exec_answers_next (i : Instr) (s : State) : ∃ t, exec i s = .next t := by
  cases i <;> exact ⟨_, rfl⟩

/-! ## The step -/

/-- What a step that answers a next state has done: it was running, and either the fetch failed or the decoded
instruction ran on the advanced state. -/
theorem step_cases {s t : State} (h : step s = .next t) :
    s.status = .running ∧
    ((s.mem.program.length ≤ s.pc.toNat ∧ t = s.raise .executionFingerOutOfBounds) ∨
     (∃ w, s.fetches w ∧ exec (decode w) s.advance = .next t)) := by
  simp only [step] at h
  split at h
  · cases h
  · cases h
  · next hrun =>
    refine ⟨hrun, ?_⟩
    simp only [Memory.fetchRead] at h
    cases hw : s.mem.program.get? s.pc.toNat with
    | none =>
      simp only [hw, Host.Outcome.next.injEq] at h
      exact .inl ⟨WordArray.get?_eq_none.1 hw, h.symm⟩
    | some w =>
      simp only [hw] at h
      exact .inr ⟨w, Memory.fetchRead_ok.2 hw, h⟩

/-- The step of a running state whose fetch succeeds. -/
theorem step_of_fetches {s : State} {w : Word} (hrun : s.status = .running) (hw : s.fetches w) :
    step s = exec (decode w) s.advance := by
  unfold State.fetches at hw
  simp only [step, hrun, hw]

end Sys2Proof.Machine
end

