-- ==== Sys2Proof/Laws/Frames.lean ====
section
/-! SUPPORT. What each update of the state leaves unchanged, in the terms of `ChangesOnly`. -/

namespace Sys2Proof.Machine

theorem ChangesOnly.refl (may : Part → Prop) (s : State) : ChangesOnly may s s := fun p _ => by
  cases p <;> rfl

/-- A frame may be widened. -/
theorem ChangesOnly.weaken {may may' : Part → Prop} {s t : State} (h : ChangesOnly may s t)
    (hle : ∀ p, may p → may' p) : ChangesOnly may' s t := fun p hp => h p (fun hm => hp (hle p hm))

/-- Frames compose. -/
theorem ChangesOnly.trans {may : Part → Prop} {s t u : State} (h : ChangesOnly may s t) (h' : ChangesOnly may t u) :
    ChangesOnly may s u := fun p hp => by
  have h1 := h p hp
  have h2 := h' p hp
  cases p <;> exact Eq.trans h2 h1

theorem changesOnly_setReg (s : State) (r : RegSel) (v : Word) : ChangesOnly (· = .reg r) s (s.setReg r v) := by
  intro p hp
  cases p with
  | reg q => exact State.reg_setReg_of_ne s v (fun h => hp (h ▸ rfl))
  | _ => rfl

theorem changesOnly_setPc (s : State) (t : Word) : ChangesOnly (· = .pc) s (s.setPc t) := by
  intro p hp
  cases p with
  | pc => exact absurd rfl hp
  | _ => rfl

theorem changesOnly_advance (s : State) : ChangesOnly (· = .pc) s s.advance := changesOnly_setPc s _

theorem changesOnly_raise (s : State) (k : Failure) : ChangesOnly (· = .status) s (s.raise k) := by
  intro p hp
  cases p with
  | status => exact absurd rfl hp
  | _ => rfl

theorem changesOnly_halt (s : State) : ChangesOnly (· = .status) s s.halt := by
  intro p hp
  cases p with
  | status => exact absurd rfl hp
  | _ => rfl

theorem changesOnly_outByte (s : State) (v : Byte) : ChangesOnly (· = .output) s (s.outByte v) := by
  intro p hp
  cases p with
  | output => exact absurd rfl hp
  | _ => rfl

theorem changesOnly_takeResponse (s : State) : ChangesOnly (· = .input) s s.takeResponse := by
  intro p hp
  cases p with
  | input => exact absurd rfl hp
  | _ => rfl

/-- Replacing one array: every other array and word is as before. -/
theorem changesOnly_setMem {s : State} {m : Memory} {id : Nat}
    (h : ∀ q, q ≠ id → m.array? q = s.mem.array? q) : ChangesOnly (Part.ofArray id) s (s.setMem m) := by
  intro p hp
  cases p with
  | word q i => exact Memory.read_congr (h q fun e => hp (.inr ⟨i, e ▸ rfl⟩)) i
  | array q => exact Memory.size?_congr (h q fun e => hp (.inl (e ▸ rfl)))
  | _ => rfl

/-- Setting one element: every other word, and every length, is as before. -/
theorem changesOnly_setElement {s : State} {id i : Nat} {a : WordArray} (v : Word) (ha : s.mem.array? id = some a) :
    ChangesOnly (· = .word id i) s (s.setMem (s.mem.setArray id (a.set i v))) := by
  intro p hp
  cases p with
  | word q k =>
    show (s.mem.setArray id (a.set i v)).read q k = s.mem.read q k
    by_cases hq : q = id
    · subst hq
      have hk : k ≠ i := fun e => hp (e ▸ rfl)
      rw [Memory.read_of_array (Memory.array?_setArray_self ..), Memory.read_of_array ha,
        WordArray.get?_set_of_ne _ _ hk]
    · exact Memory.read_congr (Memory.array?_setArray_of_ne _ _ hq) k
  | array q =>
    show (s.mem.setArray id (a.set i v)).size? q = s.mem.size? q
    by_cases hq : q = id
    · subst hq; simp [Memory.size?, ha]
    · exact Memory.size?_congr (Memory.array?_setArray_of_ne _ _ hq)
  | _ => rfl

end Sys2Proof.Machine
end

