-- ==== Sys2Proof/Laws/PerInstr.lean ====
section
/-! SUPPORT. Per-instruction families. OpcodeNumber: the encoder puts each instruction's own number (30_encoding.md R65)
into bits [31:28], as 00_scope.md R7 reads them. -/

namespace Sys2Proof.Laws

/-- The opcode number of an instruction (30_encoding.md R65). -/
def opcodeNumber : Instr → Nat
  | .cmov _ _ _ => 0
  | .index _ _ _ => 1
  | .amend _ _ _ => 2
  | .add _ _ _ => 3
  | .mul _ _ _ => 4
  | .div _ _ _ => 5
  | .nand _ _ _ => 6
  | .halt => 7
  | .alloc _ _ => 8
  | .abandon _ => 9
  | .output _ => 10
  | .input _ => 11
  | .loadprog _ _ => 12
  | .ortho _ _ => 13
  | .invalid op => op.val

/-- The opcode field of a format S word. -/
theorem bits_encS {op : Nat} (hop : op < 16) (a b c : RegSel) : bits (encS op a b c) 31 28 = op := by
  have ha := a.isLt; have hb := b.isLt; have hc := c.isLt
  simp only [bits, encS, u32, BitVec.toNat_ofNat]
  omega

/-- The opcode field of a format I word. -/
theorem bits_encI (a : RegSel) (imm : BitVec 25) : bits (encI a imm) 31 28 = 13 := by
  have ha := a.isLt; have himm := imm.isLt
  simp only [bits, encI, u32, BitVec.toNat_ofNat]
  omega

end Sys2Proof.Laws

namespace Sys2Proof.Laws.OpcodeNumber

/-- The encoded word carries the instruction's opcode number. -/
def Statement (i : Instr) : Prop := bits (encode i) 31 28 = opcodeNumber i

theorem cmov (a b c : RegSel) : Statement (.cmov a b c) := bits_encS (by decide) a b c
theorem index (a b c : RegSel) : Statement (.index a b c) := bits_encS (by decide) a b c
theorem amend (a b c : RegSel) : Statement (.amend a b c) := bits_encS (by decide) a b c
theorem add (a b c : RegSel) : Statement (.add a b c) := bits_encS (by decide) a b c
theorem mul (a b c : RegSel) : Statement (.mul a b c) := bits_encS (by decide) a b c
theorem div (a b c : RegSel) : Statement (.div a b c) := bits_encS (by decide) a b c
theorem nand (a b c : RegSel) : Statement (.nand a b c) := bits_encS (by decide) a b c
theorem halt : Statement .halt := bits_encS (by decide) 0 0 0
theorem alloc (b c : RegSel) : Statement (.alloc b c) := bits_encS (by decide) 0 b c
theorem abandon (c : RegSel) : Statement (.abandon c) := bits_encS (by decide) 0 0 c
theorem output (c : RegSel) : Statement (.output c) := bits_encS (by decide) 0 0 c
theorem input (c : RegSel) : Statement (.input c) := bits_encS (by decide) 0 0 c
theorem loadprog (b c : RegSel) : Statement (.loadprog b c) := bits_encS (by decide) 0 b c
theorem ortho (a : RegSel) (imm : BitVec 25) : Statement (.ortho a imm) := bits_encI a imm
theorem invalid (op : Fin 16) : Statement (.invalid op) := bits_encS op.isLt 0 0 0

end Sys2Proof.Laws.OpcodeNumber
end

