-- ==== Sys2Proof/Laws/Run.lean ====
section
/-! SUPPORT. The laws of a run: when a step waits, what the environment's answer and the next point are, and that every
state of a run is reached. -/

namespace Sys2Proof.Machine

/-! ## The wait in Input -/

/-- Holding undoes the advance: the state is the one before the step. -/
@[simp] theorem State.hold_advance (s : State) : s.advance.hold = s := by
  cases s; simp [State.advance, State.hold]

/-- A step waits exactly where a running machine fetches an Input and nothing is queued. -/
theorem State.waitsForInput_iff (s : State) :
    s.waitsForInput = true ↔ s.status = .running ∧ s.input = [] ∧ ∃ w c, s.fetches w ∧ decode w = .input c := by
  unfold State.waitsForInput State.fetches
  cases s.status <;> cases h : s.mem.fetchRead s.pc.toNat <;> cases s.input <;> simp_all
  rename_i w
  cases decode w <;> simp

theorem State.not_waitsForInput_of_status {s : State} (h : s.status ≠ .running) : s.waitsForInput = false := by
  rw [← Bool.not_eq_true, State.waitsForInput_iff]; exact fun hw => h hw.1

theorem State.not_waitsForInput_of_input {s : State} (h : s.input ≠ []) : s.waitsForInput = false := by
  rw [← Bool.not_eq_true, State.waitsForInput_iff]; exact fun hw => h hw.2.1

@[simp] theorem State.answer_not_waitsForInput (s : State) (r : InputResponse) : (s.answer r).waitsForInput = false :=
  State.not_waitsForInput_of_input (by simp)

/-- The result where the step does not wait. -/
theorem State.stepResult_of_next {s t : State} (hw : s.waitsForInput = false) (h : step s = .next t) :
    s.stepResult = some t.status.result := by simp [State.stepResult, hw, h]

/-! ## One point of a run -/

@[simp] theorem InputStream.response?_finite_nil (k : Nat) : (InputStream.finite []).response? k = none := rfl

/-- Queueing the first `m` responses queues the response to every request below `m`, and no other. -/
theorem InputStream.getElem?_take (env : InputStream) (m k : Nat) :
    (env.take m)[k]? = if k < m then env.response? k else none := by
  cases env <;> simp [InputStream.take, InputStream.response?, List.getElem?_take]
  split <;> simp [*]

@[simp] theorem InputStream.take_zero (env : InputStream) : env.take 0 = [] := by cases env <;> simp [InputStream.take]

/-- Where request `k` has a response, so has every request before it. -/
theorem InputStream.length_take {env : InputStream} {k : Nat} {r : InputResponse} (h : env.response? k = some r) :
    (env.take k).length = k := by
  cases env with
  | finite l =>
    have hk : k < l.length := (List.getElem?_eq_some_iff.1 h).1
    simp [InputStream.take]; omega
  | infinite f => simp [InputStream.take]

/-- The response to request `k` follows the `k` responses before it. -/
theorem InputStream.take_succ {env : InputStream} {k : Nat} {r : InputResponse} (h : env.response? k = some r) :
    env.take (k + 1) = env.take k ++ [r] := by
  apply List.ext_getElem?
  intro i
  rw [InputStream.getElem?_take, List.getElem?_append, InputStream.length_take h, InputStream.getElem?_take]
  obtain h1 | rfl | h1 := Nat.lt_trichotomy i k
  · simp [h1, Nat.lt_succ_of_lt h1]
  · simp [h]
  · simp [Nat.not_lt.2 (Nat.le_of_lt h1), Nat.not_lt.2 h1]; omega

theorem RunPoint.answered_of_not_waits {env : InputStream} {p : RunPoint} (h : p.state.waitsForInput = false) :
    p.answered env = p := by simp [RunPoint.answered, h]

theorem RunPoint.answered_of_response {env : InputStream} {p : RunPoint} {r : InputResponse}
    (h : p.state.waitsForInput = true) (hr : env.response? p.asked = some r) :
    p.answered env = { state := p.state.answer r, asked := p.asked + 1 } := by simp [RunPoint.answered, h, hr]

theorem RunPoint.answered_of_blocked {env : InputStream} {p : RunPoint} (h : p.isBlocked env) : p.answered env = p := by
  simp [RunPoint.answered, h.1, h.2]

/-- The coming step waits for a response that never comes, or it does not wait once the environment has answered. -/
theorem RunPoint.blocked_or_answered (env : InputStream) (p : RunPoint) :
    p.isBlocked env ∨ (p.answered env).state.waitsForInput = false := by
  cases hw : p.state.waitsForInput with
  | false => exact .inr (by rw [RunPoint.answered_of_not_waits hw]; exact hw)
  | true =>
    cases hr : env.response? p.asked with
    | none => exact .inl ⟨hw, hr⟩
    | some r => exact .inr (by rw [RunPoint.answered_of_response hw hr]; simp)

/-- An answer changes the input channel alone. -/
@[simp] theorem RunPoint.answered_status (env : InputStream) (p : RunPoint) :
    (p.answered env).state.status = p.state.status := by
  simp only [RunPoint.answered]; repeat (first | split | rfl)

theorem RunPoint.next_of_step {env : InputStream} {p : RunPoint} {t : State} (h : step (p.answered env).state = .next t) :
    p.next env = { state := t, asked := (p.answered env).asked } := by simp only [RunPoint.next, h]

/-! ## The run -/

@[simp] theorem runAfter_zero (env : InputStream) (s : State) : runAfter env s 0 = { state := s, asked := 0 } := rfl

theorem runAfter_succ (env : InputStream) (s : State) (n : Nat) :
    runAfter env s (n + 1) = (runAfter env s n).next env := rfl

/-- A point that the run does not leave is where the run stays. -/
theorem runAfter_add_of_next_self {env : InputStream} {s : State} {n : Nat}
    (h : (runAfter env s n).next env = runAfter env s n) (k : Nat) : runAfter env s (n + k) = runAfter env s n := by
  induction k with
  | zero => rfl
  | succ k ih => rw [← Nat.add_assoc, runAfter_succ, ih, h]

theorem Reaches.answeredPoint {env : InputStream} {s : State} {p : RunPoint} (h : Reaches s p.state) :
    Reaches s (p.answered env).state := by
  simp only [RunPoint.answered]
  split
  · next hw =>
    split
    · exact h.answered _ hw
    · exact h
  · exact h

/-- Every state of every run is reached, so that what holds of the reached states holds along every run. -/
theorem reaches_runAfter (env : InputStream) (s : State) (n : Nat) : Reaches s (runAfter env s n).state := by
  induction n with
  | zero => exact .start
  | succ n ih =>
    rw [runAfter_succ]
    simp only [RunPoint.next]
    split
    · next h => exact .more ih.answeredPoint h
    · exact ih
    · exact ih

end Sys2Proof.Machine
end

