-- ==== Sys2Proof/Tests/Slice0.lean ====
section
/-! SUPPORT. The model's own tests. Expected results are the spec's: 95_test_vectors.md (V-…, scenarios), 30_encoding.md
R71, or worked from a rule's formula. Then, for each obligation with hypotheses, a concrete state and operands that meet
them all. -/

namespace Sys2Proof.Tests

open Sys2Proof.Machine

/-! ## Helpers -/

/-- A running machine with this program and these registers. -/
def machine (program : List Word) (regs : List (RegSel × Word)) : State :=
  regs.foldl (fun s p => s.setReg p.1 p.2) { State.reset with mem := { State.reset.mem with program := .ofWords program } }

/-- The same with heap arrays 1, 2, … in order and the allocator past them. -/
def machineWithHeap (program : List Word) (heap : List (List Word)) (regs : List (RegSel × Word)) : State :=
  let s := machine program regs
  { s with
    mem := { s.mem with heap := heap.zipIdx.map fun p => (p.2 + 1, WordArray.ofWords p.1) }
    nextId := heap.length + 1 }

/-- A view of the state a step leaves, none where it leaves none. -/
def after {α : Type} (s : State) (view : State → α) : Option α :=
  match step s with
  | .next t => some (view t)
  | .fault _ => none
  | .refused _ => none

/-! ## WellFormed, decode, encode -/

theorem test_wf_refuses_invalid_with_an_assigned_opcode : (Instr.invalid 13).wf = false := by decide
theorem test_wf_accepts_the_unassigned_opcodes : (Instr.invalid 14).wf = true ∧ (Instr.invalid 15).wf = true := by decide

-- 30_encoding.md R71, each constructor's word written out from the format.
theorem test_decode_cmov : decode 0b0000_0000000000000000000_001_010_011 = .cmov 1 2 3 := by decide
theorem test_decode_index : decode 0b0001_0000000000000000000_011_010_000 = .index 3 2 0 := by decide
theorem test_decode_amend : decode 0b0010_0000000000000000000_010_011_100 = .amend 2 3 4 := by decide
theorem test_decode_add : decode 0b0011_0000000000000000000_010_000_001 = .add 2 0 1 := by decide
theorem test_decode_mul : decode 0b0100_0000000000000000000_001_001_010 = .mul 1 1 2 := by decide
theorem test_decode_div : decode 0b0101_0000000000000000000_000_000_001 = .div 0 0 1 := by decide
theorem test_decode_nand : decode 0b0110_0000000000000000000_011_000_000 = .nand 3 0 0 := by decide
theorem test_decode_halt : decode 0b0111_1111111111111111111_111_111_111 = .halt := by decide
theorem test_decode_alloc : decode 0b1000_0000000000000000000_000_010_001 = .alloc 2 1 := by decide
theorem test_decode_abandon : decode 0b1001_0000000000000000000_000_000_010 = .abandon 2 := by decide
theorem test_decode_output : decode 0b1010_1111111111111111111_111_000_111 = .output 7 := by decide
theorem test_decode_input : decode 0b1011_0000000000000000000_000_000_001 = .input 1 := by decide
theorem test_decode_loadprog : decode 0b1100_0000000000000000000_000_000_110 = .loadprog 0 6 := by decide
theorem test_decode_ortho : decode 0b1101_001_0000000000000000000000111 = .ortho 1 7 := by decide
theorem test_decode_invalid : decode 0b1110_0000000000000000000000000000 = .invalid 14 := by decide
theorem test_decode_table_word : decodeTableWord 32 0xD000002A = some (.ortho 0 42) := by decide

-- 30_encoding.md R71's words, from the encoder.
theorem test_encode_words :
    encode (.cmov 1 2 3) = 0x00000053 ∧ encode (.amend 2 3 4) = 0x2000009C ∧ encode .halt = 0x70000000 ∧
    encode (.loadprog 0 6) = 0xC0000006 ∧ encode (.ortho 1 7) = 0xD2000007 ∧ encode (.invalid 15) = 0xF0000000 := by
  decide

/-! ## One step per instruction -/

-- V-CMV-6: the condition is read before the write. V-CMV-2: a zero condition writes nothing.
theorem test_cmov_reads_the_condition_first :
    after (machine [0x00000008] [(0, 3), (1, 8)]) (·.reg 0) = some 8 := by decide
theorem test_cmov_zero_condition :
    after (machine [0x00000053] [(1, 9), (2, 5)]) (·.reg 1) = some 9 := by decide

-- V-IDX-5: an index whose selectors coincide reads its own word. V-IDX-6: past the end of the program array.
theorem test_index_own_word :
    after (machine [0x10000049] []) (·.reg 1) = some 0x10000049 := by decide
theorem test_index_past_the_program :
    after (machine [0x10000041] [(1, 1)]) (fun t => (t.status, t.reg 1, t.pc)) =
      some (.failed .invalidArrayAccess, 1, 1) := by decide

-- V-AMD-1 and V-AMD-2.
theorem test_amend_heap :
    after (machineWithHeap [0x2000009C] [[0, 0, 0]] [(2, 1), (3, 2), (4, 99)]) (·.mem.heap) =
      some [(1, WordArray.ofWords [0, 0, 99])] := by decide
theorem test_amend_program :
    after (machine [0x2000000A, 0xF0000000] [(1, 1), (2, 0x70000000)]) (·.mem.program) =
      some (WordArray.ofWords [0x2000000A, 0x70000000]) := by decide

-- V-ADD-2, V-MUL-4.
theorem test_add_wraps :
    after (machine [0x30000053] [(1, 7), (2, 0xFFFFFFFF), (3, 1)]) (·.reg 1) = some 0 := by decide
theorem test_mul_low_word :
    after (machine [0x40000053] [(2, 0xDEADBEEF), (3, 0x10)]) (·.reg 1) = some 0xEADBEEF0 := by decide

-- V-DIV-7: unsigned operands. Scenario D: the failure, with the finger advanced.
theorem test_div_unsigned :
    after (machine [0x50000053] [(1, 7), (2, 0x80000000), (3, 0xFFFFFFFF)]) (·.reg 1) = some 0 := by decide
theorem test_div_by_zero :
    after (machine [0x50000001] [(0, 5)]) (fun t => (t.status, t.reg 0, t.pc)) =
      some (.failed .divideByZero, 5, 1) := by decide

-- V-NAND-1.
theorem test_nand :
    after (machine [0x60000053] [(2, 0xF0F0F0F0), (3, 0xFF00FF00)]) (·.reg 1) = some 0x0FFF0FFF := by decide

-- Scenario A, and V-CYC-6's word.
theorem test_halt :
    after (machine [0x7FFFFFFF] []) (fun t => (t.status, t.pc)) = some (.halted, 1) := by decide

-- V-ALLOC-3 (the size is read before the write) and V-ALLOC-4, for every limit that admits them.
theorem test_alloc_same_register :
    ((machine [] [(1, 2)]).allocWithin 2 2).toOption.map (fun r => (r.1, r.2.nextId, r.2.mem.heap)) =
      some (1, 2, [(1, WordArray.ofWords [0, 0])]) := by decide
theorem test_alloc_identifier_exhausted :
    after { machine [0x80000011] [(1, 1), (2, 9)] with nextId := 2 ^ 32 } (fun t => (t.status, t.reg 2, t.nextId)) =
      some (.failed .identifierExhausted, 9, 2 ^ 32) := by decide

-- V-ABAN-1 and V-ABAN-3.
theorem test_abandon :
    after (machineWithHeap [0x90000002] [[0]] [(2, 1)]) (fun t => (t.mem.heap, t.nextId)) = some ([], 2) := by decide
theorem test_abandon_zero :
    after (machineWithHeap [0x90000000] [[0]] []) (·.status) = some (.failed .invalidArrayAbandonment) := by decide

-- V-OUT-2 and V-OUT-3.
theorem test_output_255 : after (machine [0xA0000001] [(1, 0xFF)]) (·.output) = some [0xFF] := by decide
theorem test_output_256 :
    after (machine [0xA0000001] [(1, 0x100)]) (fun t => (t.status, t.output)) = some (.failed .invalidOutput, []) := by
  decide

-- V-IN-5 and V-IN-4 (the step does not complete: no result, everything held).
theorem test_input_byte :
    after { machine [0xB0000001] [(1, 0x100)] with input := [.byte 0] } (fun t => (t.reg 1, t.input)) = some (0, []) := by
  decide
theorem test_input_waits :
    (machine [0xB0000001] [(1, 7)]).stepResult = none ∧
    after (machine [0xB0000001] [(1, 7)]) id = some (machine [0xB0000001] [(1, 7)]) := by decide

-- V-LP-1 and V-LP-5.
theorem test_loadprog_copies :
    after (machineWithHeap [0xC000000A] [[0x70000000, 0xD0000001]] [(1, 1), (2, 1)])
      (fun t => (t.mem.program, t.pc, t.mem.active 1)) =
      some (WordArray.ofWords [0x70000000, 0xD0000001], 1, true) := by decide
theorem test_loadprog_jumps_unchecked :
    after (machine [0xC0000003] [(3, 0x100)]) (fun t => (t.pc, t.status)) = some (0x100, .running) := by decide

-- V-ORT-2 and scenario B.
theorem test_ortho_largest : after (machine [0xDFFFFFFF] []) (·.reg 7) = some 0x01FFFFFF := by decide
theorem test_ortho_scenario_b :
    after (machine [0xD000002A] []) (fun t => (t.reg 0, t.reg 1, t.pc, t.status)) = some (42, 0, 1, .running) := by decide

-- V-CYC-4, V-CYC-1, V-CYC-5.
theorem test_invalid :
    after (machine [0xFFFFFFFF] []) (fun t => (t.status, t.pc)) = some (.failed .invalidInstruction, 1) := by decide
theorem test_fetch_past_the_end :
    after State.reset (fun t => (t.status, t.pc)) = some (.failed .executionFingerOutOfBounds, 0) := by decide
theorem test_terminal_has_no_step : step (machine [0x70000000] []).halt = .fault .notRunning := by rfl

/-! ## Ports -/

-- 70_reset_and_hazards.md R120's example and R121.
theorem test_load_big_endian :
    (State.loadBytes [0xD0, 0x00, 0x00, 0x2A] []).map (·.mem.program) = some (WordArray.ofWords [0xD000002A]) := by decide
theorem test_load_refuses_a_partial_word : State.loadBytes [0xD0, 0x00, 0x00, 0x2A, 0x70] [] = none := by decide

-- 60_exceptions.md R116: DIAG tolerates a finger out of bounds.
theorem test_diag_out_of_bounds : State.reset.diag.word = none ∧ State.reset.diag.pc = 0 := by decide

theorem test_withFetchWord_runs_the_word :
    after (State.reset.withFetchWord 32 0xD000002A) (fun t => (t.reg 0, t.pc)) = some (42, 1) := by decide

-- The memory controller's canonical form: writing 0 takes the cell away.
theorem test_write_zero_removes_the_cell :
    ((machine [7, 8] []).mem.write 0 1 0).toOption.map (·.program.cells) = some [(0, 7)] := by decide

/-! ## Witnesses: states and operands that meet the hypotheses of the obligations -/

theorem witness_DecodeFollowsTheOpcodeMap :
    ∀ k : Fin 16, bits (u32 (k.val * 2 ^ 28)) 31 28 = k.val ∧ bits (u32 (k.val * 2 ^ 28 + (2 ^ 28 - 1))) 31 28 = k.val := by
  decide

theorem witness_DecodeOfEncodeGivesTheInstruction :
    (Instr.ortho 7 0x1FFFFFF).wf = true ∧ (Instr.cmov 7 0 7).wf = true ∧ (Instr.invalid 15).wf = true := by decide

theorem witness_UnusedBitsAreIgnored :
    (0x00000053#32 &&& usedBits 0 = 0x0FFFFE53#32 &&& usedBits 0) ∧
    (0x70000000#32 &&& usedBits 7 = 0x7FFFFFFF#32 &&& usedBits 7) ∧
    (0x80000035#32 &&& usedBits 8 = 0x8FFFFFF5#32 &&& usedBits 8) ∧
    (0xB0000001#32 &&& usedBits 11 = 0xBFFFFFF9#32 &&& usedBits 11) ∧
    (0xE0000000#32 &&& usedBits 14 = 0xEFFFFFFF#32 &&& usedBits 14) := by decide

/-- A machine with a program of at most one word and one register set, in good order. -/
theorem machine_inv (program : List Word) (h : program.length ≤ 1) (r : RegSel) (v : Word) :
    (machine program [(r, v)]).Inv := by
  refine ⟨⟨WordArray.wf_ofWords _, ?_, ?_⟩, ?_, ?_, ?_, ?_⟩ <;>
    simp [machine, State.reset, Config.firstIdentifier, State.setReg, Rising]
  omega

/-- A machine with one heap array of three words, in good order. -/
theorem heap_inv (w : Word) : (machineWithHeap [w] [[0, 0, 7]] [(2, 1), (3, 2)]).Inv := by
  refine ⟨⟨WordArray.wf_ofWords _, ?_, ?_⟩, ?_, ?_, ?_, ?_⟩ <;>
    simp [machineWithHeap, machine, State.reset, State.setReg, Rising]
  simpa using WordArray.wf_ofWords [0, 0, 7]

theorem witness_StepAdvancesThenRunsTheDecodedInstruction :
    (machine [0xD000002A] [(0, 1)]).status = .running ∧ (machine [0xD000002A] [(0, 1)]).fetches 0xD000002A ∧
    (machine [0xD000002A] [(0, 1)]).Inv := ⟨rfl, rfl, machine_inv _ (by decide) _ _⟩

theorem witness_FetchPastTheEndFailsWithTheFingerUnchanged :
    State.reset.status = .running ∧ State.reset.mem.program.length ≤ State.reset.pc.toNat := by decide

theorem witness_TerminalStatusHasNoStep :
    State.reset.halt.status ≠ .running ∧ (State.reset.raise .divideByZero).status ≠ .running := by decide

/-- Each case of the state machine: waiting, continuing, halting, failing. -/
theorem witness_StatusMovesOnlyAsTheStateMachineSays :
    (∃ t, step (machine [0xB0000001] []) = .next t ∧ (machine [0xB0000001] []).waitsForInput = true) ∧
    (∃ t, step (machine [0xD000002A] []) = .next t ∧ t.status = .running) ∧
    (∃ t, step (machine [0x70000000] []) = .next t ∧ t.status = .halted) ∧
    (∃ t, step (machine [0xF0000000] []) = .next t ∧ t.status = .failed .invalidInstruction) :=
  ⟨⟨_, rfl, rfl⟩, ⟨_, rfl, rfl⟩, ⟨_, rfl, rfl⟩, ⟨_, rfl, rfl⟩⟩

theorem witness_StepKeepsTheInvariant :
    (machineWithHeap [0x2000009C] [[0, 0, 7]] [(2, 1), (3, 2)]).Inv ∧
    ∃ t, step (machineWithHeap [0x2000009C] [[0, 0, 7]] [(2, 1), (3, 2)]) = .next t := ⟨heap_inv _, _, rfl⟩

theorem witness_OnlyLoadProgramSetsTheFinger :
    (∀ b c, Instr.input 1 ≠ .loadprog b c) ∧
    ¬ ((∃ c, Instr.input 1 = .input c) ∧ ({ State.reset with input := [.endOfStream] } : State).input = []) ∧
    ∃ t, exec (.input 1) { State.reset with input := [.endOfStream] } = .next t :=
  ⟨by simp, by simp, _, rfl⟩

theorem witness_LoadConstructsTheResetState :
    ([] : List Word).length ≤ 2 ^ 32 - 1 ∧ (List.replicate (2 ^ 32 - 1) (0 : Word)).length ≤ 2 ^ 32 - 1 ∧
    2 ^ 32 - 1 < (List.replicate (2 ^ 32) (0 : Word)).length := by
  simp only [List.length_nil, List.length_replicate]; decide

theorem witness_ImageBytesLoadAsBigEndianWords :
    ([] : List Byte).length % 4 = 0 ∧ ([0xD0, 0, 0, 0x2A] : List Byte).length % 4 = 0 ∧
    ([1] : List Byte).length % 4 ≠ 0 ∧ ([1, 2, 3] : List Byte).length % 4 ≠ 0 := by decide

theorem witness_FailureChangesOnlyTheStatus :
    (∃ t, exec (.div 0 0 1) State.reset = .next t ∧ t.status = .failed .divideByZero) ∧
    (machine [0x50000001] []).fetches 0x50000001 ∧
    ∃ t, step (machine [0x50000001] []) = .next t ∧ t.status = .failed .divideByZero :=
  ⟨⟨_, rfl, rfl⟩, rfl, _, rfl, rfl⟩

/-- The failures of `SingleInstructionFailuresHappenExactlyWhenStated` and `ArrayAccessFailsExactlyOutsideTheArrays`
happen, at boundary values. -/
theorem witness_failures_happen :
    State.reset.status = .running ∧
    FailsWith (.abandon 1) State.reset .invalidArrayAbandonment ∧ FailsWith (.div 0 0 1) State.reset .divideByZero ∧
    FailsWith (.loadprog 1 0) (machine [] [(1, 1)]) .invalidLoad ∧
    FailsWith (.output 1) (machine [] [(1, 256)]) .invalidOutput ∧
    FailsWith (.index 0 1 2) (machine [5] [(2, 1)]) .invalidArrayAccess ∧
    FailsWith (.amend 1 2 0) (machine [5] [(2, 1)]) .invalidArrayAccess :=
  ⟨rfl, ⟨_, rfl, rfl⟩, ⟨_, rfl, rfl⟩, ⟨_, rfl, rfl⟩, ⟨_, rfl, rfl⟩, ⟨_, rfl, rfl⟩, ⟨_, rfl, rfl⟩⟩

/-- Both faults of Allocation happen, the second whatever the limit is. -/
theorem witness_AllocationFaultsHappenExactlyAtTheLimits :
    FailsWith (.alloc 2 1) { State.reset with nextId := 2 ^ 32 } .identifierExhausted ∧
    FailsWith (.alloc 2 1)
      { State.reset with mem := { program := .zeros (Config.maxLiveWords + 1), heap := [] } } .resourceExhausted := by
  refine ⟨⟨_, rfl, rfl⟩, ?_⟩
  rcases execAlloc_cases 2 1
    { State.reset with mem := { program := .zeros (Config.maxLiveWords + 1), heap := [] } } with
    ⟨h, -⟩ | ⟨-, -, h⟩ | ⟨-, h, -⟩
  · exact absurd h (by decide)
  · exact ⟨_, h, rfl⟩
  · simp [Memory.liveWords] at h; omega

theorem witness_UnassignedOpcodesRaiseInvalidInstruction :
    (machine [0xE0000000] []).status = .running ∧ (machine [0xE0000000] []).fetches 0xE0000000 ∧
    14 ≤ bits 0xE0000000 31 28 ∧ (machine [0xDFFFFFFF] []).fetches 0xDFFFFFFF ∧ bits 0xDFFFFFFF 31 28 < 14 ∧
    ∃ t, step (machine [0xDFFFFFFF] []) = .next t := ⟨rfl, rfl, by decide, rfl, by decide, _, rfl⟩

theorem witness_OrthographyLoadsTheZeroExtendedImmediate :
    (machine [0xDFFFFFFF] []).status = .running ∧ (machine [0xDFFFFFFF] []).fetches 0xDFFFFFFF ∧
    bits 0xDFFFFFFF 31 28 = 13 := ⟨rfl, rfl, by decide⟩

theorem witness_arithmetic_opcodes :
    bits 0x0FFFFE53 31 28 = 0 ∧ bits 0x30000081 31 28 = 3 ∧ bits 0x4000004A 31 28 = 4 ∧ bits 0x600000C0 31 28 = 6 := by
  decide

theorem witness_DivisionGivesTheFloorQuotientOrFails :
    (machine [] [(3, 1)]).reg 3 ≠ 0 ∧ State.reset.reg 3 = 0 := by decide

theorem witness_SubtractionComesFromNotAndAndAddition :
    (0 : RegSel) ≠ 1 ∧ (0 : RegSel) ≠ 3 ∧ (machine [] [(3, 1)]).reg 3 = 1 := by decide

theorem witness_PseudoInstructionsDoWhatTheirNamesSay : State.reset.reg 0 = 0 := by decide

theorem inBounds_last : (machineWithHeap [] [[0, 0, 7]] []).mem.inBounds 1 2 := ⟨3, rfl, by decide⟩

theorem not_inBounds_past : ¬ (machineWithHeap [] [[0, 0, 7]] []).mem.inBounds 1 3 := by
  rintro ⟨n, hn, h⟩
  have hn : some 3 = some n := hn
  simp only [Option.some.injEq] at hn
  omega

theorem not_inBounds_inactive : ¬ (machineWithHeap [] [[0, 0, 7]] []).mem.inBounds 2 0 := by
  rintro ⟨n, hn, -⟩
  cases hn

theorem witness_WordWriteChangesExactlyOneWord :
    (machineWithHeap [] [[0, 0, 7]] []).mem.inBounds 1 2 ∧ ¬ (machineWithHeap [] [[0, 0, 7]] []).mem.inBounds 1 3 ∧
    ¬ (machineWithHeap [] [[0, 0, 7]] []).mem.inBounds 2 0 := ⟨inBounds_last, not_inBounds_past, not_inBounds_inactive⟩

/-- Each clause of Array Index: a readable element, an element in bounds, the program array, and past the end. -/
theorem witness_ArrayIndexReadsTheSelectedElement :
    (machineWithHeap [] [[0, 0, 7]] [(2, 1), (3, 2)]).mem.read 1 2 = .ok 7 ∧
    (machineWithHeap [] [[0, 0, 7]] [(2, 1), (3, 2)]).natReg 2 = 1 ∧
    (machineWithHeap [] [[0, 0, 7]] [(2, 1), (3, 2)]).natReg 3 = 2 ∧
    (machineWithHeap [] [[0, 0, 7]] []).mem.inBounds 1 2 ∧ (machineWithHeap [] [[0, 0, 7]] []).reg 0 = 0 ∧
    ¬ (machineWithHeap [] [[0, 0, 7]] []).mem.inBounds 1 3 :=
  ⟨rfl, by decide, by decide, inBounds_last, by decide, not_inBounds_past⟩

theorem witness_ArrayAmendmentWritesTheSelectedElement :
    (machineWithHeap [] [[0, 0, 7]] [(2, 1), (3, 2)]).mem.inBounds
      ((machineWithHeap [] [[0, 0, 7]] [(2, 1), (3, 2)]).reg 2).toNat
      ((machineWithHeap [] [[0, 0, 7]] [(2, 1), (3, 2)]).reg 3).toNat ∧
    ¬ (machineWithHeap [] [[0, 0, 7]] [(2, 1), (3, 3)]).mem.inBounds
      ((machineWithHeap [] [[0, 0, 7]] [(2, 1), (3, 3)]).reg 2).toNat
      ((machineWithHeap [] [[0, 0, 7]] [(2, 1), (3, 3)]).reg 3).toNat := ⟨inBounds_last, not_inBounds_past⟩

/-- The first and the last identifier, under every limit. -/
theorem witness_AllocationYieldsAFreshZeroArray :
    1 ≤ (machine [] [(2, 9)]).nextId ∧ (machine [] [(2, 9)]).nextId ≤ 2 ^ 32 - 1 ∧
    (machine [] [(2, 9)]).mem.liveWords + ((machine [] [(2, 9)]).reg 1).toNat ≤ Config.maxLiveWords ∧
    (machine [] [(2, 9)]).Inv ∧
    1 ≤ ({ machine [] [(2, 9)] with nextId := 2 ^ 32 - 1 } : State).nextId ∧
    ({ machine [] [(2, 9)] with nextId := 2 ^ 32 - 1 } : State).nextId ≤ 2 ^ 32 - 1 := by
  have hlive : (machine [] [(2, 9)]).mem.liveWords + ((machine [] [(2, 9)]).reg 1).toNat = 0 := by decide
  exact ⟨by decide, by decide, by omega, machine_inv _ (by decide) _ _, by decide, by decide⟩

theorem witness_AbandonmentDeactivatesOnce :
    bits 0x90000002 31 28 = 9 ∧ (machineWithHeap [] [[]] [(2, 1)]).mem.active 1 = true ∧
    (machineWithHeap [] [[]] [(2, 2)]).mem.active 2 = false ∧ State.reset.reg 2 = 0 ∧
    (machine [0] [(2, 1)]).Inv ∧ (machine [0] [(2, 1)]).nextId ≤ ((machine [0] [(2, 1)]).reg 2).toNat :=
  ⟨by decide, by decide, by decide, by decide, machine_inv _ (by decide) _ _, by decide⟩

theorem witness_LoadProgramCopiesAndJumps :
    State.reset.reg 1 = 0 ∧ (machineWithHeap [] [[]] [(1, 1)]).mem.active ((machineWithHeap [] [[]] [(1, 1)]).reg 1).toNat = true ∧
    (machine [] [(1, 1)]).reg 1 ≠ 0 ∧ (machine [] [(1, 1)]).mem.active ((machine [] [(1, 1)]).reg 1).toNat = false := by
  decide

/-- A load of array 1; right after it an amendment of array 1, and in the state that leaves one of the program array. -/
theorem witness_LoadedProgramAndItsArrayAreSeparate :
    (machineWithHeap [] [[5]] [(1, 1)]).mem.active ((machineWithHeap [] [[5]] [(1, 1)]).reg 1).toNat = true ∧
    ∃ t u v, exec (.loadprog 1 0) (machineWithHeap [] [[5]] [(1, 1)]) = .next t ∧ t.mem.inBounds 1 0 ∧
      exec (.amend 1 0 1) t = .next u ∧ (t.reg 1).toNat = 1 ∧ u.status = .running ∧
      exec (.amend 0 0 1) u = .next v ∧ u.reg 0 = 0 ∧ v.status = .running :=
  ⟨by decide, _, _, _, rfl, ⟨1, by decide⟩, rfl, by decide, by decide, rfl, by decide, by decide⟩

theorem witness_AmendedProgramWordIsFetchedNext :
    let s := machine [0x2000000A, 0xF0000000] [(1, 1), (2, 0x70000000)]
    s.status = .running ∧ s.fetches 0x2000000A ∧ decode 0x2000000A = .amend 0 1 2 ∧ s.reg 0 = 0 ∧
    s.reg 1 = s.pc + 1 ∧ (s.pc + 1).toNat < s.mem.program.length :=
  ⟨rfl, rfl, by decide, by decide, by decide, by decide⟩

theorem witness_OutputSendsTheByteOrFails :
    bits 0xA0000001 31 28 = 10 ∧ ((machine [] [(1, 255)]).reg 1).toNat ≤ 255 ∧
    255 < ((machine [] [(1, 256)]).reg 1).toNat := by decide

theorem witness_InputWritesAByteOrLeavesTheRegister :
    bits 0xB0000001 31 28 = 11 ∧
    ({ State.reset with input := [.byte 255, .endOfStream] } : State).input = .byte 255 :: [.endOfStream] ∧
    ({ State.reset with input := [.endOfStream] } : State).input = .endOfStream :: [] ∧
    ({ State.reset with input := [.readError] } : State).input = .readError :: [] := by decide

theorem witness_InputHoldsUntilAnswered : (machine [0xB0000001] []).waitsForInput = true := by decide

theorem witness_OnlyAllocationMovesTheAllocator : ∃ t, step (machine [0x80000011] []) = .next t := ⟨_, rfl⟩

theorem witness_RetiredIdentifiersStayRetired :
    ∃ t, Reaches { machine [0xD000002A] [] with nextId := 2 } t ∧
      1 < ({ machine [0xD000002A] [] with nextId := 2 } : State).nextId ∧
      ({ machine [0xD000002A] [] with nextId := 2 } : State).mem.active 1 = false :=
  ⟨_, .more .start rfl, by decide, by decide⟩

/-- Both outcomes: a size kept, and an array abandoned. -/
theorem witness_HeapArraysKeepTheirSizeUntilAbandoned :
    (machineWithHeap [0xD000002A] [[0, 0, 7]] [(2, 1), (3, 2)]).Inv ∧
    (machineWithHeap [0x90000002] [[0, 0, 7]] [(2, 1), (3, 2)]).Inv ∧
    (∃ t, step (machineWithHeap [0xD000002A] [[0, 0, 7]] [(2, 1), (3, 2)]) = .next t ∧ t.mem.size? 1 = some 3) ∧
    (∃ t, step (machineWithHeap [0x90000002] [[0, 0, 7]] [(2, 1), (3, 2)]) = .next t ∧ t.mem.size? 1 = none) ∧
    (machineWithHeap [0x90000002] [[0, 0, 7]] [(2, 1), (3, 2)]).mem.size? 1 = some 3 :=
  ⟨heap_inv _, heap_inv _, ⟨_, rfl, by decide⟩, ⟨_, rfl, by decide⟩, by decide⟩

/-- A heap word changed by an amendment, and a program word changed by a load. -/
theorem witness_WordsChangeOnlyByAmendmentOrLoad :
    (machineWithHeap [0] [[0, 0, 7]] [(2, 1), (3, 2)]).Inv ∧
    (∃ t, exec (.amend 2 3 0) (machineWithHeap [0] [[0, 0, 7]] [(2, 1), (3, 2)]) = .next t ∧
      (machineWithHeap [0] [[0, 0, 7]] [(2, 1), (3, 2)]).mem.read 1 2 = .ok 7 ∧ t.mem.read 1 2 = .ok 0) ∧
    (∃ t, exec (.loadprog 2 0) (machineWithHeap [9] [[0, 0, 7]] [(2, 1), (3, 2)]) = .next t ∧
      (machineWithHeap [9] [[0, 0, 7]] [(2, 1), (3, 2)]).mem.read 0 0 = .ok 9 ∧ t.mem.read 0 0 = .ok 0) :=
  ⟨heap_inv _, ⟨_, rfl, rfl, rfl⟩, ⟨_, rfl, rfl, rfl⟩⟩

/-- Each case of a step: a response taken, a byte sent, neither; then a byte sent and an answer taken along a run. -/
theorem witness_ChannelsKeepTheirOrderAlongARun :
    (∃ t, step { machine [0xB0000001] [] with input := [.byte 9, .readError] } = .next t ∧ t.input = [.readError] ∧
      (machine [0xB0000001] []).fetches 0xB0000001 ∧ bits 0xB0000001 31 28 = 11) ∧
    (∃ t, step (machine [0xA0000001] [(1, 65)]) = .next t ∧ t.output = [65]) ∧
    (∃ t, step { machine [0xD000002A] [] with input := [.byte 9] } = .next t ∧ t.input = [.byte 9] ∧ t.output = []) ∧
    (runAfter (.finite [.byte 9]) (machine [0xB0000001] []) 1).asked = 1 ∧
    ∃ t, Reaches (machine [0xB0000001] []) t ∧ t.reg 1 = 9 ∧ t.input = [] :=
  ⟨⟨_, rfl, by decide, rfl, by decide⟩, ⟨_, rfl, by decide⟩, ⟨_, rfl, by decide, by decide⟩, by decide,
    ⟨_, .more (.answered (.byte 9) .start (by decide)) rfl, by decide, by decide⟩⟩

/-- An Input with a response, and another instruction with an empty channel. -/
theorem witness_SentBytesAndLaterResponsesHaveNoInfluence :
    (∃ t, step { machine [0xB0000001] [] with input := [.byte 1] } = .next t) ∧
    ({ machine [0xB0000001] [] with input := [.byte 1] } : State).waitsForInput = false ∧
    (∃ t, step (machine [0xD000002A] []) = .next t) ∧
    (machine [0xD000002A] []).waitsForInput = false ∧ (machine [0xD000002A] []).input = [] :=
  ⟨⟨_, rfl⟩, by decide, ⟨_, rfl⟩, by decide, by decide⟩

/-- Reads a response and jumps back to the read, for ever. -/
def readingLoop : State := machine [0xB0000001, 0xC0000000] []

def endlessStream : InputStream := .infinite fun _ => .endOfStream

theorem readingLoop_waits : readingLoop.waitsForInput = true := by decide
theorem readingLoop_reads : step (readingLoop.answer .endOfStream) = .next readingLoop.advance := rfl
theorem readingLoop_jumps : step readingLoop.advance = .next readingLoop := rfl

theorem readingLoop_answered (k : Nat) :
    RunPoint.answered endlessStream ⟨readingLoop, k⟩ = ⟨readingLoop.answer .endOfStream, k + 1⟩ :=
  RunPoint.answered_of_response readingLoop_waits rfl

theorem readingLoop_advance_answered (k : Nat) :
    RunPoint.answered endlessStream ⟨readingLoop.advance, k⟩ = ⟨readingLoop.advance, k⟩ :=
  RunPoint.answered_of_not_waits (show readingLoop.advance.waitsForInput = false by decide)

theorem readingLoop_runAfter (n : Nat) :
    (runAfter endlessStream readingLoop n).state = readingLoop ∨
    (runAfter endlessStream readingLoop n).state = readingLoop.advance := by
  induction n with
  | zero => exact .inl rfl
  | succ n ih =>
    rw [runAfter_succ]
    generalize runAfter endlessStream readingLoop n = p at ih
    obtain ⟨s, k⟩ := p
    obtain rfl | rfl := ih
    · exact .inr (by rw [RunPoint.next_of_step (by rw [readingLoop_answered]; exact readingLoop_reads)])
    · exact .inl (by rw [RunPoint.next_of_step (by rw [readingLoop_advance_answered]; exact readingLoop_jumps)])

/-- 70_reset_and_hazards.md R131, Divergence, on an infinite stream (45_io.md R98). -/
theorem test_reading_loop_diverges : EndsIn endlessStream readingLoop .divergence := by
  intro n
  have h := readingLoop_runAfter n
  generalize runAfter endlessStream readingLoop n = p at h
  obtain ⟨s, k⟩ := p
  obtain rfl | rfl := h
  · rw [RunPoint.result, readingLoop_answered]; exact State.stepResult_of_next (by simp) readingLoop_reads
  · rw [RunPoint.result, readingLoop_advance_answered]; exact State.stepResult_of_next (by decide) readingLoop_jumps

/-- 70_reset_and_hazards.md R131, Blocked: the same loop on a stream that is used up. -/
theorem test_reading_loop_blocks : EndsIn (.finite [.byte 7]) readingLoop .blocked := ⟨2, by decide, rfl⟩

/-- Each of the five ends. -/
theorem witness_EveryRunEndsInExactlyOneWay :
    (machine [0x70000000] []).status = .running ∧ EndsIn (.finite []) (machine [0x70000000] []) .halt ∧
    EndsIn (.finite []) (machine [] []) (.fail .executionFingerOutOfBounds) ∧
    EndsIn (.finite []) { machine [0x80000011] [] with nextId := 2 ^ 32 } (.modelFault .identifierExhausted) ∧
    EndsIn (.finite [.byte 7]) readingLoop .blocked ∧ EndsIn endlessStream readingLoop .divergence :=
  ⟨rfl, ⟨0, rfl, rfl⟩, ⟨rfl, 0, rfl, rfl⟩, ⟨rfl, 0, rfl, rfl⟩, test_reading_loop_blocks, test_reading_loop_diverges⟩

/-- R132's premises hold of a run that halts after it has sent a byte, and its observation is there. -/
theorem witness_EveryRunHasExactlyOneObservation :
    let s := machine [0xA0000001, 0x70000000] [(1, 65)]
    s.status = .running ∧ ClaimPremises (.finite []) s ∧
    Observes (.finite []) s
      { kind := .halt, output := fun i => [65][i]?, final := some (runAfter (.finite []) s 2).state.final } := by
  intro s
  have hstop (k : Nat) : runAfter (.finite []) s (2 + k) = runAfter (.finite []) s 2 := runAfter_add_of_next_self (by decide) k
  have hsent : (runAfter (.finite []) s 2).state.output = [65] := by decide
  have hall (P : RunPoint → Prop) (h0 : P (runAfter (.finite []) s 0)) (h1 : P (runAfter (.finite []) s 1))
      (h2 : P (runAfter (.finite []) s 2)) (n : Nat) : P (runAfter (.finite []) s n) := by
    match n with
    | 0 => exact h0
    | 1 => exact h1
    | k + 2 => rw [Nat.add_comm k 2, hstop]; exact h2
  refine ⟨rfl, ⟨?_, ?_⟩, ⟨1, by decide, by decide⟩, fun i v => ⟨fun h => ⟨2, hsent ▸ h⟩, ?_⟩, 2, by decide, rfl⟩
  · rintro kind ⟨_, n, h, _⟩
    have hr := hall (fun p => p.result (.finite []) ∈ [none, some .continue, some .halt])
      (by decide) (by decide) (by decide) n
    simp [h] at hr
  · rintro ⟨n, h, _⟩
    exact hall (fun p => p.state.waitsForInput ≠ true) (by decide) (by decide) (by decide) n h
  · rintro ⟨n, h⟩
    refine hall (fun p => p.state.output[i]? = some v → [65][i]? = some v) ?_ ?_ ?_ n h
    · intro h; cases h
    · intro h; rwa [show (runAfter (.finite []) s 1).state.output = [65] by decide] at h
    · intro h; rwa [hsent] at h

/-- A run that has asked for one of two responses. -/
theorem witness_QueuedResponsesGiveTheRunOfTheStream :
    readingLoop.input = [] ∧ (runAfter endlessStream readingLoop 1).asked = 1 ∧
    (runAfter endlessStream readingLoop 1).asked ≤ 2 := ⟨rfl, rfl, by decide⟩

theorem witness_CanonicalMemoriesThatReadAlikeAreEqual :
    (machineWithHeap [0] [[0, 0, 7]] [(2, 1), (3, 2)]).mem.wf ∧
    (∀ e ∈ (machineWithHeap [0] [[0, 0, 7]] [(2, 1), (3, 2)]).mem.heap, e.1 ≠ 0) :=
  ⟨(heap_inv 0).memWf, by decide⟩

end Sys2Proof.Tests
end

section
/-! PROOFS. The loaded program and the array it was loaded from are two arrays (10_state.md R38): Load Program leaves
both identifiers with equal contents, and a write through the one identifier never reaches the other. -/

namespace Sys2Proof.Machine

/-- Inside the arrays a write succeeds, and the element then reads as the value written (20_memory.md R45). -/
theorem Memory.exists_write_read_self {m : Memory} {id i : Nat} (v : Word) (h : m.inBounds id i) :
    ∃ m', m.write id i v = .ok m' ∧ m'.read id i = .ok v := by
  rcases m.write_cases id i v with ⟨a, -, hi, -, hw⟩ | ⟨hout, -⟩
  · exact ⟨_, hw, by
      rw [Memory.read_of_array (Memory.array?_setArray_self ..), WordArray.get?_set_self v hi]⟩
  · exact absurd h hout

/-- An amendment, failed or not, leaves every array but the one its first register names (42_arrays.md R87). -/
theorem array?_of_execAmend {x y z : RegSel} {u v : State} {q : Nat} (h : exec (.amend x y z) u = .next v)
    (hq : q ≠ (u.reg x).toNat) : v.mem.array? q = u.mem.array? q := by
  rcases execAmend_cases x y z u with ⟨w, -, -, -, he⟩ | ⟨-, he⟩ <;> cases he.symm.trans h
  · exact Memory.array?_setArray_of_ne _ _ hq
  · rfl

/-- Load Program of an active identifier: both the program array and the array of that identifier are afterwards the
array the identifier selected, and the identifier is active (44_control.md R96, 10_state.md R38). -/
theorem array?_of_execLoadprog {b c : RegSel} {s t : State} (hact : s.mem.active (s.reg b).toNat = true)
    (h : exec (.loadprog b c) s = .next t) :
    t.mem.array? 0 = s.mem.array? (s.reg b).toNat ∧
    t.mem.array? (s.reg b).toNat = s.mem.array? (s.reg b).toNat ∧ t.mem.active (s.reg b).toNat = true := by
  have hne := (Memory.active_iff.1 hact).1
  rcases execLoadprog_cases b c s with ⟨h0, -⟩ | ⟨a, -, ha, he⟩ | ⟨-, hinactive, -⟩
  · simp [h0] at hne
  · cases he.symm.trans h
    have hkept : ({ s.mem with program := a } : Memory).array? (s.reg b).toNat = s.mem.array? (s.reg b).toNat := by
      rw [Memory.array?_of_ne hne, Memory.array?_of_ne hne]
    exact ⟨(Memory.array?_of_ne hne ▸ ha).symm, hkept, hact⟩
  · simp [hinactive] at hact

/-- Settles O35: the load copies the array value, and an amendment reaches only the array of its own identifier, of
which 0 and an active identifier are two. -/
theorem loadedProgramAndItsArrayAreSeparate : Obligations.LoadedProgramAndItsArrayAreSeparate := by
  intro b c s t hact hload id
  obtain ⟨hcopy, hkept, hstill⟩ := array?_of_execLoadprog hact hload
  have hne : id ≠ 0 := (Memory.active_iff.1 hact).1
  refine ⟨Memory.size?_congr hcopy, Memory.read_congr hcopy, hstill, Memory.size?_congr hkept, Memory.read_congr hkept,
    fun _ v => Memory.exists_write_read_self v, fun x y z u v hamend => ⟨fun hx => ?_, fun hx => ?_⟩⟩
  · have hprogram : v.mem.array? 0 = u.mem.array? 0 := array?_of_execAmend hamend (hx ▸ hne.symm)
    exact ⟨Memory.size?_congr hprogram, Memory.read_congr hprogram⟩
  · have harray : v.mem.array? id = u.mem.array? id := array?_of_execAmend hamend (by simpa [hx] using hne)
    exact ⟨Memory.size?_congr harray, Memory.read_congr harray⟩

end Sys2Proof.Machine
end

section
/-! PROOFS. The memory controller's write (20_memory.md R45): one word changes, and no other word, no length and no
activity. -/

namespace Sys2Proof.Machine

/-- A successful write leaves every other word and every length: the frame of `changesOnly_setElement`, read off a
state that holds the memory. -/
theorem Memory.write_frame {m m' : Memory} {id i : Nat} {v : Word} (h : m.write id i v = .ok m') :
    (∀ id' i', (id', i') ≠ (id, i) → m'.read id' i' = m.read id' i') ∧ (∀ id', m'.size? id' = m.size? id') := by
  rcases m.write_cases id i v with ⟨a, ha, -, -, hw⟩ | ⟨-, hw⟩ <;> cases hw.symm.trans h
  have hframe := changesOnly_setElement (s := State.reset.setMem m) (i := i) v ha
  exact ⟨fun id' i' hne => hframe (.word id' i') fun e => hne (by cases e; rfl), fun id' => hframe (.array id') nofun⟩

/-- Settles O28: the write's own word by `Memory.exists_write_read_self`, the rest by the frame of a successful write;
activity follows from the lengths. -/
theorem wordWriteChangesExactlyOneWord : Obligations.WordWriteChangesExactlyOneWord := by
  intro m id i v
  refine ⟨fun hin => ?_, fun hout => ?_⟩
  · obtain ⟨m', hwrite, hread⟩ := Memory.exists_write_read_self v hin
    obtain ⟨hwords, hsizes⟩ := Memory.write_frame hwrite
    have hactive (id' : Nat) : m'.active id' = m.active id' := by
      rw [Memory.active_eq_size, Memory.active_eq_size, hsizes]
    exact ⟨m', hwrite, hread, hwords, fun id' => ⟨hsizes id', hactive id'⟩⟩
  · rcases m.write_cases id i v with ⟨-, -, -, hin, -⟩ | ⟨-, hfail⟩
    · exact absurd hin hout
    · exact hfail

end Sys2Proof.Machine
end

section
/-! PROOFS. The opcode map (30_encoding.md R65) with both formats' fields read as 00_scope.md R7 reads a field. -/

namespace Sys2Proof.Machine

/-- The opcodes the map leaves unassigned, 14 and 15, decode to `invalid` with the opcode (30_encoding.md R66). -/
theorem decode_of_unassigned {w : Word} (h : 14 ≤ bits w 31 28) :
    decode w = .invalid (Fin.ofNat 16 (bits w 31 28)) := by
  have hlt := bits_opcode_lt w
  obtain hop | hop : bits w 31 28 = 14 ∨ bits w 31 28 = 15 := by omega
  all_goals simp only [decode, opcodeField_toNat, opcodeField_toFin, hop]

/-- Settles O2: with the decoder's slices read as numbers, each assigned opcode selects its own row of the decoder's
match, and the last two rows are the unassigned opcodes. -/
theorem decodeFollowsTheOpcodeMap : Obligations.DecodeFollowsTheOpcodeMap := by
  intro w a b c
  refine ⟨?cmov, ?index, ?amend, ?add, ?mul, ?div, ?nand, ?halt, ?alloc, ?abandon, ?output, ?input, ?loadprog, ?ortho,
    ?unassigned14, ?unassigned15⟩ <;> intro hop
  case unassigned14 | unassigned15 => rw [decode_of_unassigned (by omega), hop]; rfl
  all_goals
    simp only [decode, opcodeField_toNat, hop, fieldA_eq, fieldB_eq, fieldC_eq, fieldOrthoA_eq, fieldImm_eq, a, b, c]

end Sys2Proof.Machine
end

section
/-! PROOFS. The advance of the finger (40_cycle.md R76), and why it does not wrap: a word is fetched only below the
length of the program array, which the invariant bounds (10_state.md R36, point 3). -/

namespace Sys2Proof.Machine

/-- A fetch succeeds only inside the program array (40_cycle.md R75). -/
theorem State.fetches.pc_lt_length {s : State} {w : Word} (h : s.fetches w) : s.pc.toNat < s.mem.program.length := by
  by_contra hpast
  cases h.symm.trans (Memory.fetchRead_past (Nat.le_of_not_lt hpast))

/-- Under the invariant the advance after a fetch adds 1 to the finger as a number. -/
theorem State.Inv.advance_pc_toNat {s : State} {w : Word} (hinv : s.Inv) (hw : s.fetches w) :
    s.advance.pc.toNat = s.pc.toNat + 1 := by
  have hlt := hw.pc_lt_length
  have hlen := hinv.programLength
  exact BitVec.toNat_add_of_lt (show s.pc.toNat + 1 < 2 ^ 32 by omega)

/-- Settles O6: the step by `step_of_fetches`, the advance by its field and frame rules, and no wrap because the finger
of a successful fetch is below the program's length. -/
theorem stepAdvancesThenRunsTheDecodedInstruction : Obligations.StepAdvancesThenRunsTheDecodedInstruction :=
  fun s _ hrun hw =>
    ⟨step_of_fetches hrun hw, State.advance_pc s, fun hinv => hinv.advance_pc_toNat hw, changesOnly_advance s⟩

end Sys2Proof.Machine
end

section
/-! PROOFS. The register moves (41_move.md): each writes its destination alone, and Orthography's finger and other
registers follow from that frame on the advanced state. -/

namespace Sys2Proof.Machine

/-- Opcode 0 is Conditional Move, by the first row of the opcode map (30_encoding.md R65). -/
theorem decode_of_opcode_cmov {w : Word} (hop : bits w 31 28 = 0) :
    decode w = .cmov (selector w 6) (selector w 3) (selector w 0) :=
  (decodeFollowsTheOpcodeMap w).1 hop

/-- Opcode 13 is Orthography, by its row of the opcode map (30_encoding.md R65). -/
theorem decode_of_opcode_ortho {w : Word} (hop : bits w 31 28 = 13) :
    decode w = .ortho (selector w 25) (BitVec.ofNat 25 (bits w 24 0)) := by
  obtain ⟨-, -, -, -, -, -, -, -, -, -, -, -, -, hortho, -, -⟩ := decodeFollowsTheOpcodeMap w
  exact hortho hop

/-- The 25 immediate bits lose nothing as a 25-bit word. -/
theorem toNat_ofNat_immediate (w : Word) : (BitVec.ofNat 25 (bits w 24 0)).toNat = bits w 24 0 := by
  rw [BitVec.toNat_ofNat, Nat.mod_eq_of_lt]
  exact Nat.mod_lt _ (by decide)

/-- Settles O20: a nonzero condition makes the move one register write, a zero condition leaves the state; the source
and the condition are read in the state before the write, so coincident selectors need no case of their own. -/
theorem conditionalMoveWritesWhenTheConditionIsNonzero :
    Obligations.ConditionalMoveWritesWhenTheConditionIsNonzero := by
  refine ⟨fun _ => decode_of_opcode_cmov, fun a b c s => ⟨_, execCmov_eq a b c s, ?_⟩⟩
  by_cases hc : s.reg c ≠ 0
  · rw [if_pos hc, if_pos hc]
    exact ⟨State.reg_setReg_self s a _, changesOnly_setReg s a _⟩
  · rw [if_neg hc, if_neg hc]
    exact ⟨rfl, ChangesOnly.refl _ s⟩

/-- Orthography writes the immediate as a number, and only its destination changes (41_move.md R84). -/
theorem exec_ortho_writes (a : RegSel) (imm : BitVec 25) (s : State) :
    ∃ t, exec (.ortho a imm) s = .next t ∧ (t.reg a).toNat = imm.toNat ∧ ChangesOnly (· = .reg a) s t := by
  refine ⟨_, execOrtho_eq a imm s, ?_, changesOnly_setReg s a _⟩
  rw [State.reg_setReg_self, BitVec.toNat_setWidth_of_le (by decide)]

/-- Settles O21: the step runs the decoded instruction on the advanced state, where the frame of Orthography keeps the
advanced finger and the other seven registers. -/
theorem orthographyLoadsTheZeroExtendedImmediate : Obligations.OrthographyLoadsTheZeroExtendedImmediate := by
  refine ⟨fun _ => decode_of_opcode_ortho, exec_ortho_writes, fun s w hrun hw hop => ?_⟩
  obtain ⟨t, hexec, himm, hframe⟩ := exec_ortho_writes (selector w 25) (BitVec.ofNat 25 (bits w 24 0)) s.advance
  refine ⟨t, ?_, hframe .pc nofun, himm.trans (toNat_ofNat_immediate w), fun r hr => hframe (.reg r) ?_⟩
  · rw [step_of_fetches hrun hw, decode_of_opcode_ortho hop, hexec]
  · exact fun e => hr (Part.reg.inj e)

end Sys2Proof.Machine
end

section
/-! PROOFS. Abandonment (42_arrays.md R89): it fails exactly on an identifier that is not active, and an active one is
inactive afterwards, so that the second abandonment is one that fails. -/

namespace Sys2Proof.Machine

/-- Opcode 9 is Abandonment, by its row of the opcode map (30_encoding.md R65). -/
theorem decode_of_opcode_abandon {w : Word} (hop : bits w 31 28 = 9) : decode w = .abandon (selector w 0) := by
  obtain ⟨-, -, -, -, -, -, -, -, -, habandon, -, -, -, -, -, -⟩ := decodeFollowsTheOpcodeMap w
  exact habandon hop

theorem Memory.active_erase_self (m : Memory) (id : Nat) :
    ({ m with heap := eraseKey id m.heap } : Memory).active id = false :=
  Memory.active_eq_false.2 (.inr (lookup_eraseKey_self id m.heap))

theorem Memory.size?_erase_self {m : Memory} {id : Nat} (h : id ≠ 0) :
    ({ m with heap := eraseKey id m.heap } : Memory).size? id = none := by
  simp only [Memory.size?, Memory.array?_erase_self h, Option.map_none]

/-- An identifier the allocator has not issued is not active (10_state.md R36, point 2). -/
theorem State.Inv.not_active_of_nextId_le {s : State} {id : Nat} (hinv : s.Inv) (h : s.nextId ≤ id) :
    s.mem.active id = false :=
  Memory.active_eq_false.2 <| .inr <| lookup_eq_none fun e he =>
    Nat.ne_of_lt (Nat.lt_of_lt_of_le (hinv.heapIds e he).2 h)

/-- Abandoning an identifier that is not active fails (42_arrays.md R89). -/
theorem failsWith_abandon_of_not_active {c : RegSel} {s : State} (h : s.mem.active (s.reg c).toNat = false) :
    FailsWith (.abandon c) s .invalidArrayAbandonment := by
  rcases execAbandon_cases c s with ⟨hact, -⟩ | ⟨-, hfail⟩
  · simp [h] at hact
  · exact ⟨_, hfail, rfl⟩

/-- Abandoning an active identifier takes it off the heap, and that alone (42_arrays.md R89). -/
theorem execAbandon_of_active {c : RegSel} {s : State} (h : s.mem.active (s.reg c).toNat = true) :
    exec (.abandon c) s = .next (s.setMem { s.mem with heap := eraseKey (s.reg c).toNat s.mem.heap }) := by
  rcases execAbandon_cases c s with ⟨-, hexec⟩ | ⟨hinactive, -⟩
  · exact hexec
  · simp [h] at hinactive

/-- Settles O32: an active identifier is erased from the heap, and the register that names it is as before, so that a
second abandonment meets an inactive one; 0 and an identifier never issued are inactive too. -/
theorem abandonmentDeactivatesOnce : Obligations.AbandonmentDeactivatesOnce := by
  refine ⟨fun _ => decode_of_opcode_abandon, fun c s => ?_⟩
  intro id
  refine ⟨fun hact => ?_, failsWith_abandon_of_not_active, fun hzero => ?_, fun hinv hfresh => ?_⟩
  · have hinactive := Memory.active_erase_self s.mem id
    have hne : id ≠ 0 := (Memory.active_iff.1 hact).1
    exact ⟨_, execAbandon_of_active hact, hinactive, Memory.size?_erase_self hne,
      changesOnly_setMem fun _ hq => Memory.array?_erase_of_ne hq, failsWith_abandon_of_not_active hinactive⟩
  · exact failsWith_abandon_of_not_active (Memory.active_eq_false.2 (.inl (by simp [hzero])))
  · exact failsWith_abandon_of_not_active (hinv.not_active_of_nextId_le hfresh)

end Sys2Proof.Machine
end

section
/-! PROOFS. Addition, Multiplication and Not-And (43_alu.md): each writes its destination alone, with a value read in
the state before the write, so that coincident selectors need no case of their own. -/

namespace Sys2Proof.Machine

/-- Opcode 3 is Addition, by its row of the opcode map (30_encoding.md R65). -/
theorem decode_of_opcode_add {w : Word} (hop : bits w 31 28 = 3) :
    decode w = .add (selector w 6) (selector w 3) (selector w 0) := by
  obtain ⟨-, -, -, hadd, -⟩ := decodeFollowsTheOpcodeMap w
  exact hadd hop

/-- Opcode 4 is Multiplication, by its row of the opcode map (30_encoding.md R65). -/
theorem decode_of_opcode_mul {w : Word} (hop : bits w 31 28 = 4) :
    decode w = .mul (selector w 6) (selector w 3) (selector w 0) := by
  obtain ⟨-, -, -, -, hmul, -⟩ := decodeFollowsTheOpcodeMap w
  exact hmul hop

/-- Opcode 6 is Not-And, by its row of the opcode map (30_encoding.md R65). -/
theorem decode_of_opcode_nand {w : Word} (hop : bits w 31 28 = 6) :
    decode w = .nand (selector w 6) (selector w 3) (selector w 0) := by
  obtain ⟨-, -, -, -, -, -, hnand, -⟩ := decodeFollowsTheOpcodeMap w
  exact hnand hop

/-- Narrowing an exact result to a word is reduction modulo 2^32 (00_scope.md R8). -/
theorem toNat_u32 (n : Nat) : (u32 n).toNat = n % 2 ^ 32 := BitVec.toNat_ofNat n 32

/-- Each bit of the Not-And of two words, bit by bit over the whole word (43_alu.md R93). -/
theorem getLsbD_not_and {k : Nat} (hk : k < 32) (x y : Word) :
    (~~~(x &&& y)).getLsbD k = !(x.getLsbD k && y.getLsbD k) := by
  rw [BitVec.getLsbD_not, BitVec.getLsbD_and, decide_eq_true hk, Bool.true_and]

/-- Settles O25: Not-And is one register write of the complemented conjunction, read bit by bit. -/
theorem notAndIsBitwise : Obligations.NotAndIsBitwise := by
  refine ⟨fun _ => decode_of_opcode_nand, fun a b c s =>
    ⟨_, execNand_eq a b c s, fun k hk => ?_, changesOnly_setReg s a _⟩⟩
  rw [State.reg_setReg_self, getLsbD_not_and hk]

/-- Settles O22: Addition is one register write of the exact sum narrowed to a word. -/
theorem additionWrapsModuloTwoToTheThirtyTwo : Obligations.AdditionWrapsModuloTwoToTheThirtyTwo := by
  refine ⟨fun _ => decode_of_opcode_add, fun a b c s => ⟨_, execAdd_eq a b c s, ?_, changesOnly_setReg s a _⟩⟩
  rw [State.reg_setReg_self, toNat_u32]

/-- Settles O23: Multiplication is one register write of the exact product narrowed to a word. -/
theorem multiplicationKeepsTheLowWord : Obligations.MultiplicationKeepsTheLowWord := by
  refine ⟨fun _ => decode_of_opcode_mul, fun a b c s => ⟨_, execMul_eq a b c s, ?_, changesOnly_setReg s a _⟩⟩
  rw [State.reg_setReg_self, toNat_u32]

end Sys2Proof.Machine
end

section
/-! PROOFS. Output and Input (45_io.md): Output checks the value before it sends its low byte, which is the whole value
up to 255; Input takes the front response, and then writes a register when that response is a byte. -/

namespace Sys2Proof.Machine

/-- Opcode 10 is Output, by its row of the opcode map (30_encoding.md R65). -/
theorem decode_of_opcode_output {w : Word} (hop : bits w 31 28 = 10) : decode w = .output (selector w 0) := by
  obtain ⟨-, -, -, -, -, -, -, -, -, -, houtput, -⟩ := decodeFollowsTheOpcodeMap w
  exact houtput hop

/-- Opcode 11 is Input, by its row of the opcode map (30_encoding.md R65). -/
theorem decode_of_opcode_input {w : Word} (hop : bits w 31 28 = 11) : decode w = .input (selector w 0) := by
  obtain ⟨-, -, -, -, -, -, -, -, -, -, -, hinput, -⟩ := decodeFollowsTheOpcodeMap w
  exact hinput hop

/-- A value of at most 255 loses nothing as the byte that is sent (45_io.md R99). -/
theorem toNat_setWidth_byte {v : Word} (h : v.toNat ≤ 255) : (v.setWidth 8).toNat = v.toNat := by
  rw [BitVec.toNat_setWidth, Nat.mod_eq_of_lt (Nat.lt_succ_of_le h)]

/-- A received byte keeps its value as a word: it is zero-extended (45_io.md R100). -/
theorem toNat_byteValue (v : Byte) : (byteValue v).toNat = v.toNat := BitVec.toNat_setWidth_of_le (by decide)

/-- Output of a value of at most 255 sends its low byte (45_io.md R99). -/
theorem execOutput_of_le {c : RegSel} {s : State} (h : (s.reg c).toNat ≤ 255) :
    exec (.output c) s = .next (s.outByte ((s.reg c).setWidth 8)) := by
  rcases execOutput_cases c s with ⟨hgt, -⟩ | ⟨-, hsend⟩
  · exact absurd h (Nat.not_le_of_lt hgt)
  · exact hsend

/-- Output of a value above 255 fails (45_io.md R99). -/
theorem execOutput_of_gt {c : RegSel} {s : State} (h : 255 < (s.reg c).toNat) :
    exec (.output c) s = .next (s.raise .invalidOutput) := by
  rcases execOutput_cases c s with ⟨-, hfail⟩ | ⟨hle, -⟩
  · exact hfail
  · exact absurd hle (Nat.not_le_of_lt h)

/-- Settles O37: the byte sent is the value itself because it is at most 255, and only the output grows; above 255 the
status alone changes. -/
theorem outputSendsTheByteOrFails : Obligations.OutputSendsTheByteOrFails := by
  refine ⟨fun _ => decode_of_opcode_output, fun c s => ⟨fun hle => ?_, fun hgt => ?_⟩⟩
  · exact ⟨_, _, execOutput_of_le hle, State.outByte_output s _, toNat_setWidth_byte hle, changesOnly_outByte s _⟩
  · exact ⟨_, execOutput_of_gt hgt, State.raise_status s _, State.raise_output s _, State.raise_reg s _⟩

/-- Input with a response takes the front one and uses it (45_io.md R100). -/
theorem execInput_of_input {c : RegSel} {s : State} {r : InputResponse} {rest : List InputResponse}
    (h : s.input = r :: rest) : exec (.input c) s = .next (s.takeResponse.receive c r) := by
  rcases execInput_cases c s with ⟨hnil, -⟩ | ⟨r', rest', hcons, hexec⟩
  · exact absurd (h.symm.trans hnil) (List.cons_ne_nil r rest)
  · obtain ⟨rfl, -⟩ := List.cons.inj (h.symm.trans hcons)
    exact hexec

/-- The responses left once the front one has been taken. -/
theorem State.takeResponse_input_of_cons {s : State} {r : InputResponse} {rest : List InputResponse}
    (h : s.input = r :: rest) : s.takeResponse.input = rest := by
  rw [State.takeResponse_input, h, List.tail_cons]

/-- Input of a byte changes the register that gets it and the channel it was taken from, and nothing else. -/
theorem changesOnly_takeResponse_setReg (s : State) (c : RegSel) (v : Word) :
    ChangesOnly (fun p => p = .reg c ∨ p = .input) s (s.takeResponse.setReg c v) :=
  ((changesOnly_takeResponse s).weaken fun _ => .inr).trans ((changesOnly_setReg _ c v).weaken fun _ => .inl)

/-- Settles O38: every response is taken from the front; a byte is then one register write of the same number, and the
other two responses end in the same state, the one with the response taken. -/
theorem inputWritesAByteOrLeavesTheRegister : Obligations.InputWritesAByteOrLeavesTheRegister := by
  refine ⟨fun _ => decode_of_opcode_input, fun c s rest => ⟨fun v hbyte => ?_, fun hnone => ?_⟩⟩
  · refine ⟨s.takeResponse.setReg c (byteValue v), execInput_of_input hbyte, ?_,
      State.takeResponse_input_of_cons hbyte, changesOnly_takeResponse_setReg s c _⟩
    rw [State.reg_setReg_self, toNat_byteValue]
  · rcases hnone with heos | herr
    · exact ⟨s.takeResponse, execInput_of_input heos, State.takeResponse_input_of_cons heos, changesOnly_takeResponse s⟩
    · exact ⟨s.takeResponse, execInput_of_input herr, State.takeResponse_input_of_cons herr, changesOnly_takeResponse s⟩

end Sys2Proof.Machine
end

section
/-! PROOFS. Which failures an instruction raises (60_exceptions.md R103 to R107): the causes are listed once, and a
running state fails with a kind exactly for a cause of that kind. -/

namespace Sys2Proof.Machine

/-- Why an instruction, run in `s`, raises a failure: the causes of 60_exceptions.md R103 to R107, by instruction. -/
inductive FailureCause (s : State) : Instr → Failure → Prop where
  | indexOutside {a b c : RegSel} (h : ¬ s.mem.inBounds (s.reg b).toNat (s.reg c).toNat) :
      FailureCause s (.index a b c) .invalidArrayAccess
  | amendOutside {a b c : RegSel} (h : ¬ s.mem.inBounds (s.reg a).toNat (s.reg b).toNat) :
      FailureCause s (.amend a b c) .invalidArrayAccess
  | zeroDivisor {a b c : RegSel} (h : s.reg c = 0) : FailureCause s (.div a b c) .divideByZero
  | noIdentifier {b c : RegSel} (h : 2 ^ 32 - 1 < s.nextId) : FailureCause s (.alloc b c) .identifierExhausted
  | noStorage {b c : RegSel} (hid : s.nextId ≤ 2 ^ 32 - 1)
      (h : Config.maxLiveWords < s.mem.liveWords + (s.reg c).toNat) : FailureCause s (.alloc b c) .resourceExhausted
  | abandonInactive {c : RegSel} (h : s.mem.active (s.reg c).toNat = false) :
      FailureCause s (.abandon c) .invalidArrayAbandonment
  | outputTooLarge {c : RegSel} (h : 255 < (s.reg c).toNat) : FailureCause s (.output c) .invalidOutput
  | loadInactive {b c : RegSel} (hne : s.reg b ≠ 0) (h : s.mem.active (s.reg b).toNat = false) :
      FailureCause s (.loadprog b c) .invalidLoad
  | unassigned {op : Fin 16} : FailureCause s (.invalid op) .invalidInstruction

/-- An instruction with a cause to fail enters that failure, and does nothing else (60_exceptions.md R108, R109). -/
theorem FailureCause.exec_eq {i : Instr} {s : State} {k : Failure} (hcause : FailureCause s i k) :
    exec i s = .next (s.raise k) := by
  cases hcause with
  | indexOutside h => exact ((execIndex_cases _ _ _ s).resolve_left fun ⟨_, hin, _⟩ => h hin).2
  | amendOutside h => exact ((execAmend_cases _ _ _ s).resolve_left fun ⟨_, _, _, hin, _⟩ => h hin).2
  | zeroDivisor h => exact ((execDiv_cases _ _ _ s).resolve_right fun ⟨hne, _⟩ => hne h).2
  | noIdentifier h =>
    rcases execAlloc_cases _ _ s with ⟨-, hfail⟩ | ⟨hid, -⟩ | ⟨hid, -⟩
    · exact hfail
    · exact absurd h (Nat.not_lt_of_le hid)
    · exact absurd h (Nat.not_lt_of_le hid)
  | noStorage hid h =>
    rcases execAlloc_cases _ _ s with ⟨hnone, -⟩ | ⟨-, -, hfail⟩ | ⟨-, hfits, -⟩
    · exact absurd hnone (Nat.not_lt_of_le hid)
    · exact hfail
    · exact absurd h (Nat.not_lt_of_le hfits)
  | abandonInactive h => exact ((execAbandon_cases _ s).resolve_left fun ⟨hact, _⟩ => by simp [h] at hact).2
  | outputTooLarge h => exact execOutput_of_gt h
  | loadInactive hne h =>
    rcases execLoadprog_cases _ _ s with ⟨hzero, -⟩ | ⟨_, hact, -⟩ | ⟨-, -, hfail⟩
    · exact absurd hzero hne
    · simp [h] at hact
    · exact hfail
  | unassigned => exact execInvalid_eq _ s

/-- The state an instruction that fails has answered holds the kind of the failure. -/
theorem FailsWith.status_eq {i : Instr} {s t : State} {k : Failure} (hf : FailsWith i s k) (h : exec i s = .next t) :
    t.status = .failed k := by
  obtain ⟨u, hu, hk⟩ := hf
  cases h.symm.trans hu
  exact hk

/-- A cause to fail of an instruction that fails with `k` is a cause of kind `k`. -/
theorem FailsWith.cause {i : Instr} {s : State} {k k' : Failure} (hf : FailsWith i s k) (hcause : FailureCause s i k') :
    FailureCause s i k :=
  Status.failed.inj (hf.status_eq hcause.exec_eq) ▸ hcause

/-- An instruction that leaves the state running has not failed. -/
theorem not_failsWith_of_running {i : Instr} {s t : State} {k : Failure} (h : exec i s = .next t)
    (hrun : t.status = .running) : ¬ FailsWith i s k := fun hf => nomatch hrun.symm.trans (hf.status_eq h)

@[simp] theorem State.receive_status (s : State) (c : RegSel) (r : InputResponse) :
    (s.receive c r).status = s.status := by cases r <;> rfl

/-- The failures of an instruction in a running state are those it has a cause for (60_exceptions.md R103 to R107). -/
theorem failsWith_iff_failureCause {i : Instr} {s : State} {k : Failure} (hrun : s.status = .running) :
    FailsWith i s k ↔ FailureCause s i k := by
  refine ⟨fun hf => ?_, fun hcause => ⟨_, hcause.exec_eq, State.raise_status s k⟩⟩
  cases i with
  | cmov a b c => exact absurd hf (not_failsWith_of_running (execCmov_eq a b c s) (by split <;> exact hrun))
  | index a b c =>
    rcases execIndex_cases a b c s with ⟨_, -, -, he⟩ | ⟨hout, -⟩
    · exact absurd hf (not_failsWith_of_running he hrun)
    · exact hf.cause (.indexOutside hout)
  | amend a b c =>
    rcases execAmend_cases a b c s with ⟨_, -, -, -, he⟩ | ⟨hout, -⟩
    · exact absurd hf (not_failsWith_of_running he hrun)
    · exact hf.cause (.amendOutside hout)
  | add a b c => exact absurd hf (not_failsWith_of_running (execAdd_eq a b c s) hrun)
  | mul a b c => exact absurd hf (not_failsWith_of_running (execMul_eq a b c s) hrun)
  | div a b c =>
    rcases execDiv_cases a b c s with ⟨hzero, -⟩ | ⟨-, he⟩
    · exact hf.cause (.zeroDivisor hzero)
    · exact absurd hf (not_failsWith_of_running he hrun)
  | nand a b c => exact absurd hf (not_failsWith_of_running (execNand_eq a b c s) hrun)
  | halt => exact nomatch hf.status_eq (execHalt_eq s)
  | alloc b c =>
    rcases execAlloc_cases b c s with ⟨hnone, -⟩ | ⟨hid, hfull, -⟩ | ⟨-, -, he⟩
    · exact hf.cause (.noIdentifier hnone)
    · exact hf.cause (.noStorage hid hfull)
    · exact absurd hf (not_failsWith_of_running he hrun)
  | abandon c =>
    rcases execAbandon_cases c s with ⟨-, he⟩ | ⟨hinactive, -⟩
    · exact absurd hf (not_failsWith_of_running he hrun)
    · exact hf.cause (.abandonInactive hinactive)
  | output c =>
    rcases execOutput_cases c s with ⟨hgt, -⟩ | ⟨-, he⟩
    · exact hf.cause (.outputTooLarge hgt)
    · exact absurd hf (not_failsWith_of_running he hrun)
  | input c =>
    rcases execInput_cases c s with ⟨-, he⟩ | ⟨r, _, -, he⟩
    · exact absurd hf (not_failsWith_of_running he hrun)
    · exact absurd hf (not_failsWith_of_running he ((State.receive_status _ c r).trans hrun))
  | loadprog b c =>
    rcases execLoadprog_cases b c s with ⟨-, he⟩ | ⟨_, -, -, he⟩ | ⟨hne, hinactive, -⟩
    · exact absurd hf (not_failsWith_of_running he hrun)
    · exact absurd hf (not_failsWith_of_running he hrun)
    · exact hf.cause (.loadInactive hne hinactive)
  | ortho a imm => exact absurd hf (not_failsWith_of_running (execOrtho_eq a imm s) hrun)
  | invalid op => exact hf.cause .unassigned

/-- Settles O16: each of the four kinds has one cause, of one instruction; identifier 0 is among the inactive ones. -/
theorem singleInstructionFailuresHappenExactlyWhenStated :
    Obligations.SingleInstructionFailuresHappenExactlyWhenStated := by
  intro i s hrun
  simp only [failsWith_iff_failureCause hrun]
  refine ⟨⟨fun | .abandonInactive hinactive => ⟨_, rfl, .inr hinactive⟩, ?_⟩,
    ⟨fun | .zeroDivisor hzero => ⟨_, _, _, rfl, hzero⟩, ?_⟩,
    ⟨fun | .loadInactive hne hinactive => ⟨_, _, rfl, hne, hinactive⟩, ?_⟩,
    ⟨fun | .outputTooLarge hgt => ⟨_, rfl, hgt⟩, ?_⟩⟩
  · rintro ⟨c, rfl, hzero | hinactive⟩
    · exact .abandonInactive (Memory.active_eq_false.2 (.inl (by simp [hzero])))
    · exact .abandonInactive hinactive
  · rintro ⟨a, b, c, rfl, hzero⟩
    exact .zeroDivisor hzero
  · rintro ⟨b, c, rfl, hne, hinactive⟩
    exact .loadInactive hne hinactive
  · rintro ⟨c, rfl, hgt⟩
    exact .outputTooLarge hgt

end Sys2Proof.Machine
end

section
/-! PROOFS. The load contract (70_reset_and_hazards.md R120, R121): a byte stream is cut into groups of four, each read
as a big-endian word, and the last group must be whole. -/

namespace Sys2Proof.Machine

/-- The value of byte group `k` of a stream, its first byte the most significant (70_reset_and_hazards.md R120). -/
def bigEndianValue (bytes : List Byte) (k : Nat) : Nat :=
  (bytes.getD (4 * k) 0).toNat * 2 ^ 24 + (bytes.getD (4 * k + 1) 0).toNat * 2 ^ 16 +
  (bytes.getD (4 * k + 2) 0).toNat * 2 ^ 8 + (bytes.getD (4 * k + 3) 0).toNat

theorem bigEndianValue_lt (bytes : List Byte) (k : Nat) : bigEndianValue bytes k < 2 ^ 32 := by
  unfold bigEndianValue
  have hbyte (i : Nat) : (bytes.getD i 0).toNat < 2 ^ 8 := (bytes.getD i 0).isLt
  have := hbyte (4 * k)
  have := hbyte (4 * k + 1)
  have := hbyte (4 * k + 2)
  have := hbyte (4 * k + 3)
  omega

/-- Behind a first group, the groups are those of the rest of the stream. -/
theorem bigEndianValue_succ (b0 b1 b2 b3 : Byte) (rest : List Byte) (k : Nat) :
    bigEndianValue (b0 :: b1 :: b2 :: b3 :: rest) (k + 1) = bigEndianValue rest k := rfl

/-- The words of the whole groups of a stream, group 0 first. -/
def wholeWords (bytes : List Byte) : List Word :=
  (List.range (bytes.length / 4)).map fun k => u32 (bigEndianValue bytes k)

@[simp] theorem wholeWords_length (bytes : List Byte) : (wholeWords bytes).length = bytes.length / 4 := by
  simp [wholeWords]

theorem wholeWords_getD_toNat {bytes : List Byte} {k : Nat} (hk : k < (wholeWords bytes).length) :
    ((wholeWords bytes).getD k 0).toNat = bigEndianValue bytes k := by
  rw [List.getD_eq_getElem _ _ hk]
  simp only [wholeWords, List.getElem_map, List.getElem_range, toNat_u32]
  exact Nat.mod_eq_of_lt (bigEndianValue_lt bytes k)

/-- A first group gives the first word. -/
theorem wholeWords_cons (b0 b1 b2 b3 : Byte) (rest : List Byte) :
    wholeWords (b0 :: b1 :: b2 :: b3 :: rest) =
      u32 (bigEndianValue (b0 :: b1 :: b2 :: b3 :: rest) 0) :: wholeWords rest := by
  have hdiv : (b0 :: b1 :: b2 :: b3 :: rest).length / 4 = rest.length / 4 + 1 :=
    Nat.add_div_right rest.length (by decide : 0 < 4)
  simp only [wholeWords, hdiv, List.range_succ_eq_map, List.map_cons, List.map_map, Function.comp_def,
    bigEndianValue_succ]

/-- A stream of whole groups gives their words, and any other gives none (70_reset_and_hazards.md R120, R121): the model
takes a group off the stream at a time, which leaves the length modulo 4. -/
theorem imageOfBytes_eq : ∀ bytes : List Byte,
    imageOfBytes bytes = if bytes.length % 4 = 0 then some (wholeWords bytes) else none
  | [] => rfl
  | [_] => rfl
  | [_, _] => rfl
  | [_, _, _] => rfl
  | b0 :: b1 :: b2 :: b3 :: rest => by
    have hmod : (b0 :: b1 :: b2 :: b3 :: rest).length % 4 = rest.length % 4 := Nat.add_mod_right rest.length 4
    rw [hmod, wholeWords_cons, imageOfBytes, imageOfBytes_eq rest]
    split <;> rfl

/-- A load that succeeds leaves the finger at index 0 of the image (10_state.md R35). -/
theorem State.load_some {image : List Word} {responses : List InputResponse} {s : State}
    (h : State.load image responses = some s) : s.pc = 0 ∧ s.mem.program = .ofWords image := by
  unfold State.load at h
  split at h <;> cases h
  exact ⟨rfl, rfl⟩

/-- Reads of a program array that was made of a sequence of words (20_memory.md R44). -/
theorem Memory.read_zero_of_ofWords {m : Memory} {ws : List Word} (h : m.program = .ofWords ws) {i : Nat}
    (hi : i < ws.length) : m.read 0 i = .ok (ws.getD i 0) := by
  rw [Memory.read_of_array (m.array?_zero.trans (congrArg some h)), WordArray.get?_ofWords,
    List.getD_eq_getElem _ _ hi, List.getElem?_eq_getElem hi]

/-- Settles O14: the words are the values of the whole groups by `imageOfBytes_eq`, and a load of them puts word 0 where
the finger stands. -/
theorem imageBytesLoadAsBigEndianWords : Obligations.ImageBytesLoadAsBigEndianWords := by
  intro bytes responses
  rw [State.loadBytes, imageOfBytes_eq]
  refine ⟨fun hpartial => ?_, fun hwhole => ⟨wholeWords bytes, wholeWords_length bytes, ?_,
    fun _ hk => wholeWords_getD_toNat hk, fun s hload => ?_⟩⟩
  · rw [if_neg hpartial, Option.bind_none]
  · rw [if_pos hwhole, Option.bind_some]
  · obtain ⟨hpc, hprogram⟩ := State.load_some hload
    exact ⟨hpc, fun _ hk => Memory.read_zero_of_ofWords hprogram hk⟩

end Sys2Proof.Machine
end

section
/-! PROOFS. Decoder and encoder (30_encoding.md R64 to R69): the number of a decoded instruction is the opcode of its
word, the encoder's fields are read back, and bits outside an opcode's mask are in no field that is read. -/

namespace Sys2Proof.Machine

open Sys2Proof.Laws

/-- Settles O1, each of the twelve words by running the decoder on it. -/
theorem specExampleWordsDecode : Obligations.SpecExampleWordsDecode := by
  refine ⟨?_, ?_, ?_, ?_, ?_, ?_, ?_, ?_, ?_, ?_, ?_, ?_⟩ <;> decide

/-- The instruction a word decodes to has the number the word's opcode field holds (30_encoding.md R65). -/
theorem opcodeNumber_decode (w : Word) : opcodeNumber (decode w) = bits w 31 28 := by
  have hlt := bits_opcode_lt w
  simp only [decode, opcodeField_toNat, opcodeField_toFin]
  generalize bits w 31 28 = op at hlt
  interval_cases op <;> rfl

/-- The opcode of a word, from what the word decodes to. -/
theorem opcode_of_decode {w : Word} {i : Instr} (h : decode w = i) : bits w 31 28 = opcodeNumber i :=
  (opcodeNumber_decode w).symm.trans (congrArg opcodeNumber h)

/-- Every word decodes to a well-formed term (30_encoding.md R64). -/
theorem decode_wf (w : Word) : (decode w).wf = true := by
  have hlt := bits_opcode_lt w
  simp only [decode, opcodeField_toNat, opcodeField_toFin]
  generalize bits w 31 28 = op at hlt
  interval_cases op <;> rfl

/-- Only the opcodes 14 and 15 decode to `invalid` (30_encoding.md R66). -/
theorem opcode_of_decode_invalid {w : Word} {op : Fin 16} (h : decode w = .invalid op) :
    bits w 31 28 = 14 ∨ bits w 31 28 = 15 := by
  have hwf : (Instr.invalid op).wf = true := h ▸ decode_wf w
  have hop : bits w 31 28 = op.val := opcode_of_decode h
  obtain rfl | rfl : op = 14 ∨ op = 15 := by simpa [Instr.wf, unassigned] using hwf
  · exact .inl hop
  · exact .inr hop

/-- Settles O3: the encoded word carries the instruction's number, so the opcode map gives its form, and each field of
that form is read where the encoder put it. -/
theorem decodeOfEncodeGivesTheInstruction : Obligations.DecodeOfEncodeGivesTheInstruction := by
  intro i hwf
  obtain ⟨hcmov, hindex, hamend, hadd, hmul, hdiv, hnand, hhalt, halloc, habandon, houtput, hinput, hloadprog, hortho,
    hinvalid14, hinvalid15⟩ := decodeFollowsTheOpcodeMap (encode i)
  cases i with
  | cmov a b c => rw [hcmov (OpcodeNumber.cmov a b c)]; simp only [encode, bits_encS_selector]
  | index a b c => rw [hindex (OpcodeNumber.index a b c)]; simp only [encode, bits_encS_selector]
  | amend a b c => rw [hamend (OpcodeNumber.amend a b c)]; simp only [encode, bits_encS_selector]
  | add a b c => rw [hadd (OpcodeNumber.add a b c)]; simp only [encode, bits_encS_selector]
  | mul a b c => rw [hmul (OpcodeNumber.mul a b c)]; simp only [encode, bits_encS_selector]
  | div a b c => rw [hdiv (OpcodeNumber.div a b c)]; simp only [encode, bits_encS_selector]
  | nand a b c => rw [hnand (OpcodeNumber.nand a b c)]; simp only [encode, bits_encS_selector]
  | halt => exact hhalt OpcodeNumber.halt
  | alloc b c => rw [halloc (OpcodeNumber.alloc b c)]; simp only [encode, bits_encS_selector]
  | abandon c => rw [habandon (OpcodeNumber.abandon c)]; simp only [encode, bits_encS_selector]
  | output c => rw [houtput (OpcodeNumber.output c)]; simp only [encode, bits_encS_selector]
  | input c => rw [hinput (OpcodeNumber.input c)]; simp only [encode, bits_encS_selector]
  | loadprog b c => rw [hloadprog (OpcodeNumber.loadprog b c)]; simp only [encode, bits_encS_selector]
  | ortho a imm =>
    rw [hortho (OpcodeNumber.ortho a imm)]
    simp only [encode, bits_encI_fields, BitVec.ofNat_toNat, BitVec.setWidth_eq]
  | invalid op =>
    obtain rfl | rfl : op = 14 ∨ op = 15 := by simpa [Instr.wf, unassigned] using hwf
    · exact hinvalid14 (OpcodeNumber.invalid 14)
    · exact hinvalid15 (OpcodeNumber.invalid 15)

/-- Settles O4: what is decoded is well formed, so the round trip of O3 gives it back. -/
theorem reencodingKeepsWhatWasDecoded : Obligations.ReencodingKeepsWhatWasDecoded := fun w =>
  ⟨decode_wf w, decodeOfEncodeGivesTheInstruction _ (decode_wf w), fun _ => opcode_of_decode_invalid⟩

/-- Words that agree on a mask agree on every field that the mask covers. -/
theorem extractLsb'_eq_of_and_eq {w v mask : Word} {start len : Nat} (h : w &&& mask = v &&& mask)
    (hmask : mask.extractLsb' start len = BitVec.allOnes len) : w.extractLsb' start len = v.extractLsb' start len := by
  simpa [BitVec.extractLsb'_and, hmask] using congrArg (BitVec.extractLsb' start len) h

theorem opcodeField_usedBits {op : Nat} (hop : op < 16) : opcodeField (usedBits op) = BitVec.allOnes 4 := by
  interval_cases op <;> decide

section MaskedFields
variable {w v mask : Word} (h : w &&& mask = v &&& mask)
include h

theorem fieldA_eq_of_and_eq (hmask : mask.extractLsb' 6 3 = BitVec.allOnes 3) : fieldA w = fieldA v :=
  congrArg BitVec.toFin (extractLsb'_eq_of_and_eq h hmask)

theorem fieldB_eq_of_and_eq (hmask : mask.extractLsb' 3 3 = BitVec.allOnes 3) : fieldB w = fieldB v :=
  congrArg BitVec.toFin (extractLsb'_eq_of_and_eq h hmask)

theorem fieldC_eq_of_and_eq (hmask : mask.extractLsb' 0 3 = BitVec.allOnes 3) : fieldC w = fieldC v :=
  congrArg BitVec.toFin (extractLsb'_eq_of_and_eq h hmask)

end MaskedFields

/-- Settles O5: the mask of every opcode covers the opcode field, so the two words have one opcode; and it covers each
field that the row of this opcode reads. -/
theorem unusedBitsAreIgnored : Obligations.UnusedBitsAreIgnored := by
  intro w v h
  have hlt := bits_opcode_lt w
  have hopcode : opcodeField w = opcodeField v := extractLsb'_eq_of_and_eq h (opcodeField_usedBits hlt)
  simp only [decode, ← hopcode, opcodeField_toNat]
  generalize bits w 31 28 = op at h hlt
  obtain hABC | hBC | hC | rfl | hnone :
      op ≤ 6 ∨ (op = 8 ∨ op = 12) ∨ (op = 9 ∨ op = 10 ∨ op = 11) ∨ op = 13 ∨ (op = 7 ∨ op = 14 ∨ op = 15) := by omega
  · rw [usedBits, if_pos hABC] at h
    have ha := fieldA_eq_of_and_eq h (by decide)
    have hb := fieldB_eq_of_and_eq h (by decide)
    have hc := fieldC_eq_of_and_eq h (by decide)
    interval_cases op <;> simp only [ha, hb, hc]
  · have hb : fieldB w = fieldB v := fieldB_eq_of_and_eq h (by rcases hBC with rfl | rfl <;> decide)
    have hc : fieldC w = fieldC v := fieldC_eq_of_and_eq h (by rcases hBC with rfl | rfl <;> decide)
    rcases hBC with rfl | rfl <;> simp only [hb, hc]
  · have hc : fieldC w = fieldC v := fieldC_eq_of_and_eq h (by rcases hC with rfl | rfl | rfl <;> decide)
    rcases hC with rfl | rfl | rfl <;> simp only [hc]
  · have hall : usedBits 13 = BitVec.allOnes 32 := by decide
    rw [hall, BitVec.and_allOnes, BitVec.and_allOnes] at h
    rw [h]
  · rcases hnone with rfl | rfl | rfl <;> rfl

end Sys2Proof.Machine
end

section
/-! PROOFS. What an instruction does, said once: `Effect s i t` lists every state `t` that `i` can answer from `s`, with
the condition of each, and `exec` answers exactly by this list. What every instruction or every step keeps is then a
case split over the effects. -/

namespace Sys2Proof.Machine

/-- Instruction `i`, run in `s`, writes value `v` to register `a` and does nothing else (41_move.md, 43_alu.md,
42_arrays.md R86). -/
inductive RegisterWrite (s : State) : Instr → RegSel → Word → Prop where
  | cmov {a b c : RegSel} (h : s.reg c ≠ 0) : RegisterWrite s (.cmov a b c) a (s.reg b)
  | index {a b c : RegSel} {v : Word} (h : s.mem.read (s.reg b).toNat (s.reg c).toNat = .ok v) :
      RegisterWrite s (.index a b c) a v
  | add {a b c : RegSel} : RegisterWrite s (.add a b c) a (u32 ((s.reg b).toNat + (s.reg c).toNat))
  | mul {a b c : RegSel} : RegisterWrite s (.mul a b c) a (u32 ((s.reg b).toNat * (s.reg c).toNat))
  | div {a b c : RegSel} (h : s.reg c ≠ 0) :
      RegisterWrite s (.div a b c) a (u32 ((s.reg b).toNat / (s.reg c).toNat))
  | nand {a b c : RegSel} : RegisterWrite s (.nand a b c) a (~~~(s.reg b &&& s.reg c))
  | ortho {a : RegSel} {imm : BitVec 25} : RegisterWrite s (.ortho a imm) a (imm.setWidth 32)

/-- The state with a new array of `n` zero words under the next identifier (20_memory.md R46). -/
def State.allocated (s : State) (n : Nat) : State :=
  { s with mem := { s.mem with heap := insertKey s.nextId (.zeros n) s.mem.heap }, nextId := s.nextId + 1 }

/-- Everything that instruction `i` can do in `s`: raise a failure it has a cause for, or complete with state `t`. -/
inductive Effect (s : State) : Instr → State → Prop where
  | fail {i : Instr} {k : Failure} (h : FailureCause s i k) : Effect s i (s.raise k)
  | skip {a b c : RegSel} (h : s.reg c = 0) : Effect s (.cmov a b c) s
  | write {i : Instr} {a : RegSel} {v : Word} (h : RegisterWrite s i a v) : Effect s i (s.setReg a v)
  | amend {a b c : RegSel} {w : WordArray} (hw : s.mem.array? (s.reg a).toNat = some w)
      (hlt : (s.reg b).toNat < w.length) :
      Effect s (.amend a b c) (s.setMem (s.mem.setArray (s.reg a).toNat (w.set (s.reg b).toNat (s.reg c))))
  | halt : Effect s .halt s.halt
  | alloc {b c : RegSel} (hid : s.nextId ≤ 2 ^ 32 - 1)
      (hlive : s.mem.liveWords + (s.reg c).toNat ≤ Config.maxLiveWords) :
      Effect s (.alloc b c) ((s.allocated (s.reg c).toNat).setReg b (u32 s.nextId))
  | abandon {c : RegSel} (h : s.mem.active (s.reg c).toNat = true) :
      Effect s (.abandon c) (s.setMem { s.mem with heap := eraseKey (s.reg c).toNat s.mem.heap })
  | output {c : RegSel} (h : (s.reg c).toNat ≤ 255) : Effect s (.output c) (s.outByte ((s.reg c).setWidth 8))
  | hold {c : RegSel} (h : s.input = []) : Effect s (.input c) s.hold
  | receive {c : RegSel} {r : InputResponse} {rest : List InputResponse} (h : s.input = r :: rest) :
      Effect s (.input c) (s.takeResponse.receive c r)
  | jump {b c : RegSel} (h : s.reg b = 0) : Effect s (.loadprog b c) (s.setPc (s.reg c))
  | load {b c : RegSel} {a : WordArray} (hact : s.mem.active (s.reg b).toNat = true)
      (ha : lookup (s.reg b).toNat s.mem.heap = some a) :
      Effect s (.loadprog b c) ((s.setMem { s.mem with program := a }).setPc (s.reg c))

/-- A location exists exactly when a read of it answers a word (20_memory.md R44). -/
theorem Memory.inBounds_iff_read {m : Memory} {id i : Nat} : m.inBounds id i ↔ ∃ v, m.read id i = .ok v := by
  rcases m.read_cases id i with ⟨hin, hread⟩ | ⟨hout, hread⟩
  · exact iff_of_true hin hread
  · exact iff_of_false hout (by simp [hread])

theorem Memory.inBounds_of_array {m : Memory} {id i : Nat} {a : WordArray} (ha : m.array? id = some a)
    (hlt : i < a.length) : m.inBounds id i := ⟨a.length, congrArg (Option.map _) ha, hlt⟩

/-- A write to one register is what `exec` answers for these instructions. -/
theorem RegisterWrite.exec_eq {i : Instr} {s : State} {a : RegSel} {v : Word} (hwrite : RegisterWrite s i a v) :
    exec i s = .next (s.setReg a v) := by
  cases hwrite with
  | cmov h => rw [execCmov_eq, if_pos h]
  | index h =>
    rcases execIndex_cases _ _ _ s with ⟨_, -, hread, he⟩ | ⟨hout, -⟩
    · cases h.symm.trans hread
      exact he
    · exact absurd (Memory.inBounds_iff_read.2 ⟨_, h⟩) hout
  | add => exact execAdd_eq ..
  | mul => exact execMul_eq ..
  | div h => exact ((execDiv_cases _ _ _ s).resolve_left fun ⟨hzero, _⟩ => h hzero).2
  | nand => exact execNand_eq ..
  | ortho => exact execOrtho_eq ..

/-- `exec` answers every effect of the list. -/
theorem Effect.exec_eq {i : Instr} {s t : State} (heffect : Effect s i t) : exec i s = .next t := by
  cases heffect with
  | fail h => exact h.exec_eq
  | skip h => rw [execCmov_eq, if_neg (not_not_intro h)]
  | write h => exact h.exec_eq
  | amend hw hlt =>
    rcases execAmend_cases _ _ _ s with ⟨_, hw', -, -, he⟩ | ⟨hout, -⟩
    · cases hw.symm.trans hw'
      exact he
    · exact absurd (Memory.inBounds_of_array hw hlt) hout
  | halt => exact execHalt_eq s
  | alloc hid hlive =>
    rcases execAlloc_cases _ _ s with ⟨hnone, -⟩ | ⟨-, hfull, -⟩ | ⟨-, -, he⟩
    · exact absurd hid (Nat.not_le_of_lt hnone)
    · exact absurd hlive (Nat.not_le_of_lt hfull)
    · exact he
  | abandon h => exact execAbandon_of_active h
  | output h => exact execOutput_of_le h
  | hold h => exact ((execInput_cases _ s).resolve_right fun ⟨_, _, hcons, _⟩ => by simp [h] at hcons).2
  | receive h => exact execInput_of_input h
  | jump h =>
    rcases execLoadprog_cases _ _ s with ⟨-, he⟩ | ⟨_, hact, -⟩ | ⟨hne, -⟩
    · exact he
    · exact absurd rfl (h ▸ (Memory.active_iff.1 hact).1)
    · exact absurd h hne
  | load hact ha =>
    rcases execLoadprog_cases _ _ s with ⟨hzero, -⟩ | ⟨_, -, ha', he⟩ | ⟨-, hinactive, -⟩
    · exact absurd rfl (hzero ▸ (Memory.active_iff.1 hact).1)
    · cases ha.symm.trans ha'
      exact he
    · simp [hact] at hinactive

/-- The list is complete: in every state every instruction has one of the effects. -/
theorem exists_effect (i : Instr) (s : State) : ∃ t, Effect s i t := by
  cases i with
  | cmov a b c =>
    by_cases h : s.reg c = 0
    · exact ⟨_, .skip h⟩
    · exact ⟨_, .write (.cmov h)⟩
  | index a b c =>
    rcases execIndex_cases a b c s with ⟨_, -, hread, -⟩ | ⟨hout, -⟩
    · exact ⟨_, .write (.index hread)⟩
    · exact ⟨_, .fail (.indexOutside hout)⟩
  | amend a b c =>
    rcases execAmend_cases a b c s with ⟨_, hw, hlt, -, -⟩ | ⟨hout, -⟩
    · exact ⟨_, .amend hw hlt⟩
    · exact ⟨_, .fail (.amendOutside hout)⟩
  | add a b c => exact ⟨_, .write .add⟩
  | mul a b c => exact ⟨_, .write .mul⟩
  | div a b c =>
    by_cases h : s.reg c = 0
    · exact ⟨_, .fail (.zeroDivisor h)⟩
    · exact ⟨_, .write (.div h)⟩
  | nand a b c => exact ⟨_, .write .nand⟩
  | halt => exact ⟨_, .halt⟩
  | alloc b c =>
    rcases execAlloc_cases b c s with ⟨hnone, -⟩ | ⟨hid, hfull, -⟩ | ⟨hid, hlive, -⟩
    · exact ⟨_, .fail (.noIdentifier hnone)⟩
    · exact ⟨_, .fail (.noStorage hid hfull)⟩
    · exact ⟨_, .alloc hid hlive⟩
  | abandon c =>
    cases h : s.mem.active (s.reg c).toNat with
    | true => exact ⟨_, .abandon h⟩
    | false => exact ⟨_, .fail (.abandonInactive h)⟩
  | output c =>
    rcases Nat.lt_or_ge 255 (s.reg c).toNat with h | h
    · exact ⟨_, .fail (.outputTooLarge h)⟩
    · exact ⟨_, .output h⟩
  | input c =>
    cases h : s.input with
    | nil => exact ⟨_, .hold h⟩
    | cons r rest => exact ⟨_, .receive h⟩
  | loadprog b c =>
    rcases execLoadprog_cases b c s with ⟨hzero, -⟩ | ⟨_, hact, ha, -⟩ | ⟨hne, hinactive, -⟩
    · exact ⟨_, .jump hzero⟩
    · exact ⟨_, .load hact ha⟩
    · exact ⟨_, .fail (.loadInactive hne hinactive)⟩
  | ortho a imm => exact ⟨_, .write .ortho⟩
  | invalid op => exact ⟨_, .fail .unassigned⟩

/-- What `exec` answers is the effect of the instruction. -/
theorem exec_eq_next_iff {i : Instr} {s t : State} : exec i s = .next t ↔ Effect s i t := by
  refine ⟨fun h => ?_, Effect.exec_eq⟩
  obtain ⟨u, hu⟩ := exists_effect i s
  cases h.symm.trans hu.exec_eq
  exact hu

/-- What a step does: it runs in a running state, and is a failed fetch or the effect of the fetched instruction on the
advanced state (40_cycle.md R81). -/
theorem step_effect {s t : State} (h : step s = .next t) :
    s.status = .running ∧
    ((s.mem.program.length ≤ s.pc.toNat ∧ t = s.raise .executionFingerOutOfBounds) ∨
     (∃ w, s.fetches w ∧ Effect s.advance (decode w) t)) := by
  simpa only [exec_eq_next_iff] using step_cases h

/-- A fetch answers one word. -/
theorem State.fetches.unique {s : State} {w w' : Word} (h : s.fetches w) (h' : s.fetches w') : w = w' := by
  cases h.symm.trans h'
  rfl

end Sys2Proof.Machine
end

section
/-! PROOFS. What an instruction does to memory and to the allocator, and the rules that follow: the invariant of
10_state.md R36 is kept, identifiers are not used again (R25), a heap array keeps its size (R22), and a word changes by
amendment or load alone (R21, R22). -/

namespace Sys2Proof.Machine

/-- The memory and the allocator that instruction `i` can leave, from those of `s`. -/
inductive MemoryChange (s : State) : Instr → Memory → Nat → Prop where
  | same {i : Instr} : MemoryChange s i s.mem s.nextId
  | amend {a b c : RegSel} {w : WordArray} (hw : s.mem.array? (s.reg a).toNat = some w)
      (hlt : (s.reg b).toNat < w.length) :
      MemoryChange s (.amend a b c) (s.mem.setArray (s.reg a).toNat (w.set (s.reg b).toNat (s.reg c))) s.nextId
  | alloc {b c : RegSel} (hid : s.nextId ≤ 2 ^ 32 - 1) :
      MemoryChange s (.alloc b c) { s.mem with heap := insertKey s.nextId (.zeros (s.reg c).toNat) s.mem.heap }
        (s.nextId + 1)
  | abandon {c : RegSel} (h : s.mem.active (s.reg c).toNat = true) :
      MemoryChange s (.abandon c) { s.mem with heap := eraseKey (s.reg c).toNat s.mem.heap } s.nextId
  | load {b c : RegSel} {a : WordArray} (hne : s.reg b ≠ 0) (ha : lookup (s.reg b).toNat s.mem.heap = some a) :
      MemoryChange s (.loadprog b c) { s.mem with program := a } s.nextId

theorem Effect.memoryChange {i : Instr} {s t : State} (h : Effect s i t) : MemoryChange s i t.mem t.nextId := by
  cases h with
  | amend hw hlt => exact .amend hw hlt
  | alloc hid _ => exact .alloc hid
  | abandon h => exact .abandon h
  | load hact ha => exact .load (fun hzero => (Memory.active_iff.1 hact).1 (by simp [hzero])) ha
  | @receive _ r _ _ => cases r <;> exact .same
  | fail | skip | write | halt | output | hold | jump => exact .same

/-- What a step does to memory and to the allocator: nothing, or what the fetched instruction does. -/
theorem step_memoryChange {s t : State} (h : step s = .next t) :
    (t.mem = s.mem ∧ t.nextId = s.nextId) ∨
    (∃ w, s.fetches w ∧ MemoryChange s.advance (decode w) t.mem t.nextId) := by
  obtain ⟨-, ⟨-, rfl⟩ | ⟨w, hw, heffect⟩⟩ := step_effect h
  · exact .inl ⟨rfl, rfl⟩
  · exact .inr ⟨w, hw, heffect.memoryChange⟩

/-! ## The invariant -/

/-- The bounds that an array of the memory meets under the invariant, be it the program array or of the heap. -/
theorem State.Inv.array_length_le {s : State} {id : Nat} {a : WordArray} (hinv : s.Inv)
    (ha : s.mem.array? id = some a) : a.length ≤ 2 ^ 32 - 1 := by
  by_cases hid : id = 0
  · subst hid
    cases ha
    exact hinv.programLength
  · exact hinv.heapLengths _ (mem_of_lookup (Memory.array?_of_ne hid ▸ ha))

/-- A heap key that is looked up is an issued identifier. -/
theorem State.Inv.id_bounds {s : State} {id : Nat} {a : WordArray} (hinv : s.Inv) (ha : lookup id s.mem.heap = some a) :
    1 ≤ id ∧ id < s.nextId := hinv.heapIds _ (mem_of_lookup ha)

/-- The invariant speaks of memory and allocator alone. -/
theorem State.Inv.congr {s t : State} (hinv : s.Inv) (hmem : t.mem = s.mem) (hid : t.nextId = s.nextId) : t.Inv := by
  obtain ⟨hwf, hids, hrange, hprogram, hlengths⟩ := hinv
  constructor <;> simpa only [hmem, hid]

/-- A canonical program array of allowed length keeps the invariant (10_state.md R36, point 3). -/
theorem State.Inv.setProgram {s t : State} {a : WordArray} (hinv : s.Inv) (hwf : a.wf) (hlen : a.length ≤ 2 ^ 32 - 1)
    (hmem : t.mem = { s.mem with program := a }) (hid : t.nextId = s.nextId) : t.Inv := by
  obtain ⟨⟨-, hheap⟩, hids, hrange, -, hlengths⟩ := hinv
  constructor <;> simp only [hmem, hid]
  exacts [⟨hwf, hheap⟩, hids, hrange, hlen, hlengths]

/-- A canonical heap array of allowed length under an issued identifier keeps the invariant, also where the allocator
has moved on. -/
theorem State.Inv.insertHeap {s t : State} {id : Nat} {a : WordArray} (hinv : s.Inv) (hwf : a.wf)
    (hlen : a.length ≤ 2 ^ 32 - 1) (hmem : t.mem = { s.mem with heap := insertKey id a s.mem.heap })
    (hbounds : 1 ≤ id ∧ id < t.nextId) (hrange : s.nextId ≤ t.nextId ∧ t.nextId ≤ 2 ^ 32) : t.Inv := by
  have hlisted : ∀ e ∈ t.mem.heap, e = (id, a) ∨ e ∈ s.mem.heap := fun e he => mem_insertKey (by rwa [hmem] at he)
  refine ⟨hmem ▸ Memory.wf_insert hinv.memWf hwf, fun e he => ?_, ?_, hmem ▸ hinv.programLength, fun e he => ?_⟩
  · obtain rfl | he := hlisted e he
    · exact hbounds
    · exact ⟨(hinv.heapIds e he).1, Nat.lt_of_lt_of_le (hinv.heapIds e he).2 hrange.1⟩
  · exact ⟨Nat.le_trans hinv.nextIdRange.1 hrange.1, hrange.2⟩
  · obtain rfl | he := hlisted e he
    · exact hlen
    · exact hinv.heapLengths e he

/-- Taking an array off the heap keeps the invariant. -/
theorem State.Inv.eraseHeap {s t : State} {id : Nat} (hinv : s.Inv)
    (hmem : t.mem = { s.mem with heap := eraseKey id s.mem.heap }) (hid : t.nextId = s.nextId) : t.Inv := by
  have hlisted : ∀ e ∈ t.mem.heap, e ∈ s.mem.heap := fun e he => mem_eraseKey (by rwa [hmem] at he)
  exact ⟨hmem ▸ Memory.wf_erase hinv.memWf, fun e he => hid ▸ hinv.heapIds e (hlisted e he), hid ▸ hinv.nextIdRange,
    hmem ▸ hinv.programLength, fun e he => hinv.heapLengths e (hlisted e he)⟩

/-- Every change that an instruction makes to memory and allocator keeps the invariant. -/
theorem MemoryChange.inv {i : Instr} {s t : State} (hinv : s.Inv) (h : MemoryChange s i t.mem t.nextId) : t.Inv := by
  generalize hm : t.mem = m at h
  generalize hn : t.nextId = n at h
  cases h with
  | same => exact hinv.congr hm hn
  | @amend a b c w hw hlt =>
    have hwf : (w.set (s.reg b).toNat (s.reg c)).wf := WordArray.wf_set _ (Memory.wf_array hinv.memWf hw) hlt
    have hlen : (w.set (s.reg b).toNat (s.reg c)).length ≤ 2 ^ 32 - 1 := (hinv.array_length_le hw :)
    by_cases hid : (s.reg a).toNat = 0
    · exact hinv.setProgram hwf hlen (by rw [hm, Memory.setArray, if_pos hid]) hn
    · rw [Memory.array?_of_ne hid] at hw
      refine hinv.insertHeap hwf hlen (by rw [hm, Memory.setArray, if_neg hid]) ?_ ?_
      · exact hn ▸ hinv.id_bounds hw
      · exact ⟨Nat.le_of_eq hn.symm, hn ▸ hinv.nextIdRange.2⟩
  | @alloc b c hid =>
    have hlen : (WordArray.zeros (s.reg c).toNat).length ≤ 2 ^ 32 - 1 := Nat.le_sub_one_of_lt (s.reg c).isLt
    have hone := hinv.nextIdRange.1
    exact hinv.insertHeap (WordArray.wf_zeros _) hlen hm (by omega) (by omega)
  | abandon _ => exact hinv.eraseHeap hm hn
  | load _ ha =>
    exact hinv.setProgram (hinv.memWf.2.2 _ (mem_of_lookup ha)) (hinv.heapLengths _ (mem_of_lookup ha)) hm hn

/-- Settles O10: a step changes memory and allocator in one of the listed ways, and each keeps the invariant. -/
theorem stepKeepsTheInvariant : Obligations.StepKeepsTheInvariant := by
  intro s t hinv hstep
  rcases step_memoryChange hstep with ⟨hmem, hid⟩ | ⟨w, -, hchange⟩
  · exact hinv.congr hmem hid
  · exact MemoryChange.inv (hinv.congr (State.advance_mem s) (State.advance_nextId s)) hchange

/-- Settles O11: the memory after reset is canonical and empty, and the first identifier is 1. -/
theorem resetMeetsTheInvariant : Obligations.ResetMeetsTheInvariant :=
  ⟨State.reset_memWf, nofun, by decide, by decide, nofun⟩

/-! ## One array at a time -/

/-- What becomes of the array that identifier `q` selects: nothing, or the one thing an instruction can do to it. -/
inductive ArrayChange (s : State) (q : Nat) : Instr → Option WordArray → Prop where
  | same {i : Instr} : ArrayChange s q i (s.mem.array? q)
  | amend {a b c : RegSel} {w : WordArray} (hq : (s.reg a).toNat = q) (hw : s.mem.array? q = some w)
      (hlt : (s.reg b).toNat < w.length) : ArrayChange s q (.amend a b c) (some (w.set (s.reg b).toNat (s.reg c)))
  | alloc {b c : RegSel} (hq : q = s.nextId) : ArrayChange s q (.alloc b c) (some (.zeros (s.reg c).toNat))
  | abandon {c : RegSel} (hq : (s.reg c).toNat = q) : ArrayChange s q (.abandon c) none
  | load {b c : RegSel} {a : WordArray} (hq : q = 0) (hne : s.reg b ≠ 0) : ArrayChange s q (.loadprog b c) (some a)

theorem MemoryChange.arrayChange {i : Instr} {s : State} {m : Memory} {n : Nat} (h : MemoryChange s i m n) (q : Nat) :
    ArrayChange s q i (m.array? q) := by
  cases h with
  | same => exact .same
  | @amend a b c w hw hlt =>
    by_cases hq : (s.reg a).toNat = q
    · subst hq
      rw [Memory.array?_setArray_self]
      exact .amend rfl hw hlt
    · rw [Memory.array?_setArray_of_ne _ _ (Ne.symm hq)]
      exact .same
  | @alloc b c _ =>
    by_cases hq : q = s.nextId
    · by_cases h0 : q = 0
      · subst h0
        exact .same
      · subst hq
        rw [Memory.array?_insert_self _ h0]
        exact .alloc rfl
    · rw [Memory.array?_insert_of_ne _ hq]
      exact .same
  | @abandon c hact =>
    by_cases hq : (s.reg c).toNat = q
    · subst hq
      rw [Memory.array?_erase_self (Memory.active_iff.1 hact).1]
      exact .abandon rfl
    · rw [Memory.array?_erase_of_ne (Ne.symm hq)]
      exact .same
  | load hne _ =>
    by_cases hq : q = 0
    · subst hq
      exact .load rfl hne
    · rw [Memory.array?_of_ne hq, ← Memory.array?_of_ne (m := s.mem) hq]
      exact .same

/-! ## No reuse of identifiers -/

/-- The allocator stands still, or an Allocation has moved it by 1 (10_state.md R24, R28). -/
theorem MemoryChange.nextId_cases {i : Instr} {s : State} {m : Memory} {n : Nat} (h : MemoryChange s i m n) :
    n = s.nextId ∨ (n = s.nextId + 1 ∧ ∃ b c, i = .alloc b c) := by
  cases h with
  | alloc _ => exact .inr ⟨rfl, _, _, rfl⟩
  | same | amend | abandon | load => exact .inl rfl

/-- Settles O40: only Allocation moves the allocator, and only opcode 8 decodes to it. -/
theorem onlyAllocationMovesTheAllocator : Obligations.OnlyAllocationMovesTheAllocator := by
  intro s t hstep
  rcases step_memoryChange hstep with ⟨-, hid⟩ | ⟨w, hw, hchange⟩
  · exact .inl hid
  · rcases hchange.nextId_cases with hid | ⟨hid, b, c, hdecode⟩
    · exact .inl hid
    · exact .inr ⟨hid, w, hw, opcode_of_decode hdecode⟩

/-- The array of an issued and inactive identifier does not come back: an instruction makes an array under the next
identifier alone. -/
theorem ArrayChange.inactive {i : Instr} {s : State} {id : Nat} {m : Memory} (h : ArrayChange s id i (m.array? id))
    (hissued : id < s.nextId) (hinactive : s.mem.active id = false) : m.active id = false := by
  by_cases h0 : id = 0
  · exact Memory.active_eq_false.2 (.inl h0)
  have hnone : s.mem.array? id = none := by
    rw [Memory.array?_of_ne h0]
    exact (Memory.active_eq_false.1 hinactive).resolve_left h0
  refine Memory.active_eq_false.2 (.inr ?_)
  rw [← Memory.array?_of_ne h0]
  generalize m.array? id = after at h
  cases h with
  | same => exact hnone
  | amend _ hw _ => cases hnone.symm.trans hw
  | alloc hq => exact absurd hq (Nat.ne_of_lt hissued)
  | abandon _ => rfl
  | load hq _ => exact absurd hq h0

/-- One step keeps an issued and inactive identifier inactive and never takes the allocator back (10_state.md R25). -/
theorem step_keeps_retired {s t : State} {id : Nat} (hstep : step s = .next t) (hissued : id < s.nextId)
    (hinactive : s.mem.active id = false) : s.nextId ≤ t.nextId ∧ t.mem.active id = false := by
  rcases step_memoryChange hstep with ⟨hmem, hid⟩ | ⟨w, -, hchange⟩
  · exact ⟨Nat.le_of_eq hid.symm, hmem ▸ hinactive⟩
  · refine ⟨?_, (hchange.arrayChange id).inactive hissued hinactive⟩
    rcases hchange.nextId_cases with hid | ⟨hid, -⟩
    · exact Nat.le_of_eq hid.symm
    · exact hid ▸ Nat.le_succ s.nextId

/-- Settles O41, by induction on the states that are reached: every step keeps it, and an answer touches the input
channel alone. -/
theorem retiredIdentifiersStayRetired : Obligations.RetiredIdentifiersStayRetired := by
  intro s t id hreach hissued hinactive
  induction hreach with
  | start => exact ⟨Nat.le_refl _, hinactive⟩
  | more _ hstep ih =>
    obtain ⟨hle, hstill⟩ := ih
    obtain ⟨hle', hstill'⟩ := step_keeps_retired hstep (Nat.lt_of_lt_of_le hissued hle) hstill
    exact ⟨Nat.le_trans hle hle', hstill'⟩
  | answered _ _ _ ih => exact ih

/-! ## Sizes and words -/

/-- Under the invariant an identifier that selects an array is not the next one. -/
theorem State.Inv.ne_nextId {s : State} {id : Nat} {a : WordArray} (hinv : s.Inv) (ha : s.mem.array? id = some a) :
    id ≠ s.nextId := by
  by_cases h0 : id = 0
  · exact h0 ▸ Nat.ne_of_lt hinv.nextIdRange.1
  · exact Nat.ne_of_lt (hinv.id_bounds (Memory.array?_of_ne h0 ▸ ha)).2

/-- Settles O42: of the changes an array can see, an amendment keeps its length, an allocation is of another
identifier, a load is of the program array, and an abandonment is the one that takes it away. -/
theorem heapArraysKeepTheirSizeUntilAbandoned : Obligations.HeapArraysKeepTheirSizeUntilAbandoned := by
  intro s t id n hinv hstep h0 hsize
  obtain ⟨a, ha, hlen⟩ := Option.map_eq_some_iff.1 hsize
  rcases step_memoryChange hstep with ⟨hmem, -⟩ | ⟨w, hw, hchange⟩
  · exact .inl (hmem ▸ hsize)
  · have harray := hchange.arrayChange id
    rw [Memory.size?]
    generalize t.mem.array? id = after at harray
    generalize hi : decode w = i at harray
    cases harray with
    | same => exact .inl hsize
    | amend _ hw' _ =>
      cases ha.symm.trans hw'
      exact .inl (congrArg some hlen)
    | alloc hq => exact absurd hq (hinv.ne_nextId ha)
    | abandon hq => exact .inr ⟨rfl, w, _, hw, hi, hq⟩
    | load hq _ => exact absurd hq h0

/-- A word that is read is an element of the selected array. -/
theorem Memory.read_eq_ok {m : Memory} {id k : Nat} {v : Word} :
    m.read id k = .ok v ↔ ∃ a, m.array? id = some a ∧ a.get? k = some v := by
  cases ha : m.array? id with
  | none => simp [Memory.read, ha]
  | some a => cases hg : a.get? k <;> simp [Memory.read, ha, hg]

/-- Settles O43: of the changes an array can see, an amendment alters its one element, and a load reaches the program
array alone. -/
theorem wordsChangeOnlyByAmendmentOrLoad : Obligations.WordsChangeOnlyByAmendmentOrLoad := by
  intro i s t id k v v' hinv hexec hread hread' hne
  obtain ⟨a, ha, hv⟩ := Memory.read_eq_ok.1 hread
  obtain ⟨a', ha', hv'⟩ := Memory.read_eq_ok.1 hread'
  have harray := (exec_eq_next_iff.1 hexec).memoryChange.arrayChange id
  rw [ha'] at harray
  generalize hafter : some a' = after at harray
  cases harray with
  | same =>
    cases ha.symm.trans hafter.symm
    exact absurd (Option.some.inj (hv'.symm.trans hv)) hne
  | @amend x y z w hq hw hlt =>
    cases ha.symm.trans hw
    cases hafter
    by_cases hk : k = (s.reg y).toNat
    · subst hk
      rw [WordArray.get?_set_self _ hlt] at hv'
      exact .inl ⟨x, y, z, rfl, hq, rfl, Option.some.inj hv'⟩
    · rw [WordArray.get?_set_of_ne _ _ hk] at hv'
      exact absurd (Option.some.inj (hv'.symm.trans hv)) hne
  | alloc hq => exact absurd hq (hinv.ne_nextId ha)
  | abandon _ => cases hafter
  | load hq hzero => exact .inr ⟨hq, _, _, rfl, hzero⟩

end Sys2Proof.Machine
end

section
/-! PROOFS. The instructions one by one (43_alu.md, 42_arrays.md, 44_control.md): each obligation names the effect that
its hypotheses select, and reads values and frame off it. -/

namespace Sys2Proof.Machine

/-! ## Arithmetic -/

/-- A quotient of words is a word. -/
theorem toNat_u32_div (x y : Word) : (u32 (x.toNat / y.toNat)).toNat = x.toNat / y.toNat := by
  rw [toNat_u32, Nat.mod_eq_of_lt (Nat.lt_of_le_of_lt (Nat.div_le_self ..) x.isLt)]

/-- Settles O24: with a nonzero divisor one register is written, with the quotient that the two inequalities say;
divisor 0 is a cause to fail. -/
theorem divisionGivesTheFloorQuotientOrFails : Obligations.DivisionGivesTheFloorQuotientOrFails := by
  refine fun a b c s => ⟨fun hne => ?_, fun hzero => ?_⟩
  · have hpos : 0 < (s.reg c).toNat := Nat.pos_of_ne_zero fun e => hne (BitVec.eq_of_toNat_eq e)
    refine ⟨_, (RegisterWrite.div hne).exec_eq, ?_, ?_, changesOnly_setReg s a _⟩ <;>
      rw [State.reg_setReg_self, toNat_u32_div]
    · exact Nat.div_mul_le_self ..
    · exact Nat.lt_mul_of_div_lt (Nat.lt_succ_self _) hpos
  · exact ⟨_, (FailureCause.zeroDivisor hzero).exec_eq, rfl, changesOnly_raise s _⟩

/-- A second write to the same register keeps the frame of the first. -/
theorem ChangesOnly.setReg {s t : State} {r : RegSel} (h : ChangesOnly (· = .reg r) s t) (v : Word) :
    ChangesOnly (· = .reg r) s (t.setReg r v) := h.trans (changesOnly_setReg t r v)

/-- The sum of a word, the complement of another, and 1 is their difference modulo 2^32 (43_alu.md R94). -/
theorem add_complement_add_one (x y : Word) :
    (x.toNat + (((~~~y).toNat + 1) % 2 ^ 32)) % 2 ^ 32 = (x.toNat + 2 ^ 32 - y.toNat) % 2 ^ 32 := by
  have hy := y.isLt
  rw [BitVec.toNat_not]
  omega

/-- Settles O26: the destination goes through the complement of `y`, that plus 1, and that plus `x`; the registers of
`x` and of 1 are others and keep their values. -/
theorem subtractionComesFromNotAndAndAddition : Obligations.SubtractionComesFromNotAndAndAddition := by
  intro d x y one s hx hone h1
  refine ⟨_, _, _, execNand_eq .., execAdd_eq .., execAdd_eq .., ?_,
    ((changesOnly_setReg s d _).setReg _).setReg _⟩
  simp only [State.reg_setReg_self, State.reg_setReg_of_ne _ _ hx.symm, State.reg_setReg_of_ne _ _ hone.symm, h1,
    toNat_u32, BitVec.and_self]
  exact add_complement_add_one ..

/-- Writing back what a register holds changes nothing. -/
theorem State.setReg_reg_self (s : State) (r : RegSel) : s.setReg r (s.reg r) = s := by
  simp [State.setReg, State.reg]

/-- Conditional Move of a register to itself does nothing (30_encoding.md R72, NOP). -/
theorem execCmov_self (a c : RegSel) (s : State) : exec (.cmov a a c) s = .next s := by
  rw [execCmov_eq, State.setReg_reg_self, ite_self]

/-- Settles O27: each expansion is one register write, or two to the same register, or one of the finger. -/
theorem pseudoInstructionsDoWhatTheirNamesSay : Obligations.PseudoInstructionsDoWhatTheirNamesSay := by
  refine fun s => ⟨?nop, fun a b => ?not, fun a b c => ?and, fun z r hz => ?jmp⟩
  case nop =>
    have hdecode : decode 0 = .cmov 0 0 0 := by decide
    rw [hdecode, execCmov_self]
  case not =>
    refine ⟨_, execNand_eq a b b s, ?_, changesOnly_setReg s a _⟩
    rw [State.reg_setReg_self, BitVec.and_self]
  case and =>
    refine ⟨_, _, execNand_eq a b c s, execNand_eq a a a _, ?_, (changesOnly_setReg s a _).setReg _⟩
    rw [State.reg_setReg_self, State.reg_setReg_self, BitVec.and_self, BitVec.not_not]
  case jmp => exact ⟨_, (Effect.jump hz).exec_eq, rfl, changesOnly_setPc s _⟩

/-! ## Arrays -/

/-- A read of identifier 0 is a read of the program array (42_arrays.md R85); it differs from a fetch in the kind of
its failure alone (20_memory.md R44, R49). -/
theorem Memory.read_zero (m : Memory) (k : Nat) :
    m.read 0 k = if k < m.program.length then m.fetchRead k else .error .invalidArrayAccess := by
  by_cases hlt : k < m.program.length
  · obtain ⟨v, hread⟩ := Memory.inBounds_iff_read.1 (Memory.inBounds_of_array m.array?_zero hlt)
    rw [if_pos hlt, hread, Memory.fetchRead_ok_iff_read.2 hread]
  · rw [if_neg hlt]
    rcases m.read_cases 0 k with ⟨⟨n, hn, hk⟩, -⟩ | ⟨-, hfail⟩
    · cases hn
      exact absurd hk hlt
    · exact hfail

/-- Settles O29: a readable element makes Array Index one register write; outside the arrays is a cause to fail. -/
theorem arrayIndexReadsTheSelectedElement : Obligations.ArrayIndexReadsTheSelectedElement := by
  refine fun a b c s => ⟨fun v hread => ?_, Memory.inBounds_iff_read.1, fun hzero => ?_, fun hout => ?_⟩
  · exact ⟨_, (RegisterWrite.index hread).exec_eq, State.reg_setReg_self s a v, changesOnly_setReg s a v⟩
  · rw [hzero]
    exact Memory.read_zero ..
  · exact ⟨_, (FailureCause.indexOutside hout).exec_eq, rfl, changesOnly_raise s _⟩

/-- A location that exists lies in an array, below its length. -/
theorem Memory.exists_array_of_inBounds {m : Memory} {id i : Nat} (h : m.inBounds id i) :
    ∃ a, m.array? id = some a ∧ i < a.length := by
  obtain ⟨n, hsize, hlt⟩ := h
  obtain ⟨a, ha, rfl⟩ := Option.map_eq_some_iff.1 hsize
  exact ⟨a, ha, hlt⟩

/-- Settles O30: inside the arrays the one element is set, so it reads as the value and the frame is that of the
element; outside is a cause to fail. -/
theorem arrayAmendmentWritesTheSelectedElement : Obligations.ArrayAmendmentWritesTheSelectedElement := by
  refine fun a b c s => ⟨fun hin => ?_, fun hout => ?_⟩
  · obtain ⟨w, hw, hlt⟩ := Memory.exists_array_of_inBounds hin
    refine ⟨_, (Effect.amend hw hlt).exec_eq, ?_, changesOnly_setElement _ hw⟩
    exact Memory.read_eq_ok.2 ⟨_, Memory.array?_setArray_self .., WordArray.get?_set_self _ hlt⟩
  · exact ⟨_, (FailureCause.amendOutside hout).exec_eq, rfl, changesOnly_raise s _⟩

/-- An allocation changes the allocator and the array of the next identifier. -/
theorem changesOnly_allocated (s : State) (n : Nat) :
    ChangesOnly (fun p => p = .nextId ∨ Part.ofArray s.nextId p) s (s.allocated n) := by
  have hother (q : Nat) (hq : q ≠ s.nextId) : (s.allocated n).mem.array? q = s.mem.array? q :=
    Memory.array?_insert_of_ne _ hq
  intro p hp
  cases p with
  | nextId => exact absurd (.inl rfl) hp
  | word q i => exact changesOnly_setMem hother (.word q i) fun h => hp (.inr h)
  | array q => exact changesOnly_setMem hother (.array q) fun h => hp (.inr h)
  | _ => rfl

/-- Settles O31: the array under the next identifier is the zero array of the size asked for; the register write comes
after it and touches the register alone. -/
theorem allocationYieldsAFreshZeroArray : Obligations.AllocationYieldsAFreshZeroArray := by
  intro b c s hone hid hlive
  have harray : (s.allocated (s.reg c).toNat).mem.array? s.nextId = some (.zeros (s.reg c).toNat) :=
    Memory.array?_insert_self _ (Nat.ne_of_gt hone)
  refine ⟨_, (Effect.alloc hid hlive).exec_eq, ?_, rfl, congrArg (Option.map _) harray, fun i hi => ?_, ?_,
    fun hinv => hinv.not_active_of_nextId_le (Nat.le_refl _)⟩
  · rw [State.reg_setReg_self, toNat_u32, Nat.mod_eq_of_lt (Nat.lt_of_le_pred (by decide) hid)]
  · refine Memory.read_eq_ok.2 ⟨_, harray, ?_⟩
    rw [WordArray.get?_zeros, if_pos hi]
  · exact ((changesOnly_allocated s _).weaken fun _ => .inr).trans ((changesOnly_setReg _ b _).weaken fun _ => .inl)

/-! ## Control -/

/-- Settles O33: Halt is one write of the status, and a status other than running has no step. -/
theorem haltStopsWithoutSideEffects : Obligations.HaltStopsWithoutSideEffects := fun s =>
  ⟨s.halt, execHalt_eq s, rfl, rfl, changesOnly_halt s, rfl⟩

/-- Settles O34: the three clauses are the jump, the load and the cause to fail of Load Program. -/
theorem loadProgramCopiesAndJumps : Obligations.LoadProgramCopiesAndJumps := by
  refine fun b c s => ⟨fun hzero => ?_, fun hact => ?_, fun hne hinactive => ?_⟩
  · exact ⟨_, (Effect.jump hzero).exec_eq, rfl, changesOnly_setPc s _⟩
  · obtain ⟨hne, a, ha⟩ := Memory.active_iff.1 hact
    have hexec : exec (.loadprog b c) s = .next _ := (Effect.load hact ha).exec_eq
    have hcopy := (array?_of_execLoadprog hact hexec).1
    have hother (q : Nat) (hq : q ≠ 0) : ({ s.mem with program := a } : Memory).array? q = s.mem.array? q := by
      rw [Memory.array?_of_ne hq, Memory.array?_of_ne hq]
    exact ⟨_, hexec, rfl, Memory.size?_congr hcopy, Memory.read_congr hcopy,
      ((changesOnly_setMem hother).weaken fun _ => .inr).trans ((changesOnly_setPc _ _).weaken fun _ => .inl)⟩
  · exact ⟨_, (FailureCause.loadInactive hne hinactive).exec_eq, rfl, changesOnly_raise s _⟩

/-- Settles O36: the amendment leaves the machine running and the finger one further, on the element it has just set. -/
theorem amendedProgramWordIsFetchedNext : Obligations.AmendedProgramWordIsFetchedNext := by
  intro s w a b c hrun hw hdecode hzero hnext hlt
  have hin : s.advance.mem.inBounds (s.advance.reg a).toNat (s.advance.reg b).toNat := by
    rw [State.advance_reg, State.advance_reg, hzero, hnext]
    exact Memory.inBounds_of_array s.mem.array?_zero hlt
  obtain ⟨t, hexec, hread, hframe⟩ := (arrayAmendmentWritesTheSelectedElement a b c s.advance).1 hin
  have hstatus : t.status = .running := (hframe .status nofun).trans hrun
  have hpc : t.pc = s.reg b := (hframe .pc nofun).trans hnext.symm
  have hfetches : t.fetches (s.reg c) := by
    rw [State.advance_reg, hzero] at hread
    rw [State.fetches, hpc, Memory.fetchRead_ok_iff_read]
    exact hread
  exact ⟨t, by rw [step_of_fetches hrun hw, hdecode, hexec], hfetches, step_of_fetches hstatus hfetches⟩

end Sys2Proof.Machine
end

section
/-! PROOFS. Failures (60_exceptions.md): a failing instruction has a cause and enters the failure, which writes the
status alone (R108, R109); the causes of each kind are those of the list. -/

namespace Sys2Proof.Machine

/-- An instruction that leaves a running state failed has done nothing but raise that failure. -/
theorem eq_raise_of_failed {i : Instr} {s t : State} {k : Failure} (hrun : s.status = .running)
    (hexec : exec i s = .next t) (hfailed : t.status = .failed k) : t = s.raise k := by
  have hcause := (failsWith_iff_failureCause hrun).1 ⟨t, hexec, hfailed⟩
  cases hexec.symm.trans hcause.exec_eq
  rfl

/-- A step of a state that fetches `w` is the instruction of `w` on the advanced state. -/
theorem exec_of_step {s t : State} {w : Word} (hw : s.fetches w) (hstep : step s = .next t) :
    s.status = .running ∧ exec (decode w) s.advance = .next t := by
  obtain ⟨hrun, -⟩ := step_effect hstep
  exact ⟨hrun, (step_of_fetches hrun hw).symm.trans hstep⟩

/-- Settles O15: the state after a failure is the state before with the status raised, and the advance before it has
put the finger one past the failing word. -/
theorem failureChangesOnlyTheStatus : Obligations.FailureChangesOnlyTheStatus := by
  refine ⟨fun i s t kind hrun hexec hfailed => ?_, fun s t w kind hw hstep hfailed => ?_⟩
  · cases eq_raise_of_failed hrun hexec hfailed
    exact changesOnly_raise s kind
  · obtain ⟨hrun, hexec⟩ := exec_of_step hw hstep
    cases eq_raise_of_failed (s := s.advance) hrun hexec hfailed
    have hback : s.pc + 1 - 1 = s.pc := BitVec.add_sub_cancel s.pc 1
    exact ⟨rfl, (congrArg (fun p : Word => s.mem.fetchRead p.toNat) hback).trans hw⟩

/-- Settles O17: among the causes, those of InvalidArrayAccess are the two locations outside the arrays. -/
theorem arrayAccessFailsExactlyOutsideTheArrays : Obligations.ArrayAccessFailsExactlyOutsideTheArrays := by
  intro i s hrun
  rw [failsWith_iff_failureCause hrun]
  constructor
  · rintro (hout | hout)
    · exact .inl ⟨_, _, _, rfl, hout⟩
    · exact .inr ⟨_, _, _, rfl, hout⟩
  · rintro (⟨a, b, c, rfl, hout⟩ | ⟨a, b, c, rfl, hout⟩)
    · exact .indexOutside hout
    · exact .amendOutside hout

/-- Settles O18: among the causes, each model fault has one, of Allocation, and none has the kind of a failed fetch. -/
theorem allocationFaultsHappenExactlyAtTheLimits : Obligations.AllocationFaultsHappenExactlyAtTheLimits := by
  intro i s hrun
  simp only [failsWith_iff_failureCause hrun]
  refine ⟨⟨fun | .noIdentifier hnone => ⟨_, _, rfl, hnone⟩, ?_⟩,
    ⟨fun | .noStorage hid hfull => ⟨_, _, rfl, hid, hfull⟩, ?_⟩, nofun⟩
  · rintro ⟨b, c, rfl, hnone⟩
    exact .noIdentifier hnone
  · rintro ⟨b, c, rfl, hid, hfull⟩
    exact .noStorage hid hfull

/-- Settles O19: `invalid` always fails; the words of the two unassigned opcodes decode to it, and a failure of this
kind has no other cause. -/
theorem unassignedOpcodesRaiseInvalidInstruction : Obligations.UnassignedOpcodesRaiseInvalidInstruction := by
  refine ⟨fun op s => ⟨_, execInvalid_eq op s, rfl, changesOnly_raise s _⟩,
    fun s w hrun hw => ⟨fun hop => ?_, fun hop t hstep hfailed => ?_⟩⟩
  · refine ⟨s.advance.raise .invalidInstruction, ?_, rfl, rfl,
      ((changesOnly_advance s).weaken fun _ => .inr).trans ((changesOnly_raise _ _).weaken fun _ => .inl)⟩
    rw [step_of_fetches hrun hw, decode_of_unassigned hop, execInvalid_eq]
  · have hcause := (failsWith_iff_failureCause (s := s.advance) hrun).1 ⟨t, (exec_of_step hw hstep).2, hfailed⟩
    generalize hi : decode w = i at hcause
    cases hcause with
    | unassigned =>
      have hunassigned := opcode_of_decode_invalid hi
      omega

end Sys2Proof.Machine
end

section
/-! PROOFS. The step and its status (40_cycle.md R74 to R82): where there is no step, where the fetch fails, where the
step waits in Input, and what the status is after it. -/

namespace Sys2Proof.Machine

/-- Opcode 7 is Halt, by its row of the opcode map (30_encoding.md R65). -/
theorem decode_of_opcode_halt {w : Word} (hop : bits w 31 28 = 7) : decode w = .halt := by
  obtain ⟨-, -, -, -, -, -, -, hhalt, -⟩ := decodeFollowsTheOpcodeMap w
  exact hhalt hop

/-- Settles O8: the step looks at the status first, and so does the result. -/
theorem terminalStatusHasNoStep : Obligations.TerminalStatusHasNoStep := by
  intro s hterminal
  have hstep : step s = .fault .notRunning := by
    cases hstatus : s.status with
    | running => exact absurd hstatus hterminal
    | halted => rw [step, hstatus]
    | failed kind => rw [step, hstatus]
  refine ⟨hstep, ?_⟩
  rw [State.stepResult, State.not_waitsForInput_of_status hterminal, hstep]
  rfl

/-- A step that waits has a word to run. -/
theorem State.not_waitsForInput_of_past {s : State} (h : s.mem.program.length ≤ s.pc.toNat) :
    s.waitsForInput = false := by
  rw [← Bool.not_eq_true, State.waitsForInput_iff]
  rintro ⟨-, -, w, -, hw, -⟩
  exact absurd hw.pc_lt_length (Nat.not_lt_of_le h)

/-- The step of a running state whose fetch fails (40_cycle.md R75). -/
theorem step_of_past {s : State} (hrun : s.status = .running) (hpast : s.mem.program.length ≤ s.pc.toNat) :
    step s = .next (s.raise .executionFingerOutOfBounds) := by
  simp only [step, hrun, Memory.fetchRead_past hpast]

/-- Settles O7: the failed fetch is raised in the state before the advance. -/
theorem fetchPastTheEndFailsWithTheFingerUnchanged : Obligations.FetchPastTheEndFailsWithTheFingerUnchanged :=
  fun s hrun hpast =>
    have hstep := step_of_past hrun hpast
    ⟨_, hstep, rfl, State.stepResult_of_next (State.not_waitsForInput_of_past hpast) hstep, changesOnly_raise s _⟩

/-- A step that waits ends where it began (log entry 3). -/
theorem step_of_waits {s : State} (h : s.waitsForInput = true) : step s = .next s := by
  obtain ⟨hrun, hempty, w, c, hw, hdecode⟩ := s.waitsForInput_iff.1 h
  rw [step_of_fetches hrun hw, hdecode, (Effect.hold (s := s.advance) hempty).exec_eq, State.hold_advance]

theorem State.stepResult_of_waits {s : State} (h : s.waitsForInput = true) : s.stepResult = none := if_pos h

/-- From a running state, only Halt leads to Halted (40_cycle.md R82). -/
theorem Effect.halted_iff {i : Instr} {s t : State} (h : Effect s i t) (hrun : s.status = .running) :
    t.status = .halted ↔ i = .halt := by
  have hkept (hstatus : t.status = s.status) (hne : i ≠ .halt) : t.status = .halted ↔ i = .halt :=
    iff_of_false (by simp [hstatus, hrun]) hne
  cases h with
  | fail hcause => exact iff_of_false nofun (by rintro rfl; cases hcause)
  | write hwrite => exact hkept rfl (by rintro rfl; cases hwrite)
  | halt => exact iff_of_true rfl rfl
  | @receive c r _ _ => exact hkept (State.receive_status _ c r) nofun
  | skip | amend | alloc | abandon | output | hold | jump | load => exact hkept rfl nofun

/-- A step ends in Halted exactly when it ran a word of opcode 7. -/
theorem step_halted_iff {s t : State} (hstep : step s = .next t) :
    t.status = .halted ↔ ∃ w, s.fetches w ∧ bits w 31 28 = 7 := by
  obtain ⟨hrun, ⟨hpast, rfl⟩ | ⟨w, hw, heffect⟩⟩ := step_effect hstep
  · exact iff_of_false nofun fun ⟨w, hw, _⟩ => Nat.not_lt_of_le hpast hw.pc_lt_length
  · rw [heffect.halted_iff hrun]
    refine ⟨fun hdecode => ⟨w, hw, opcode_of_decode hdecode⟩, ?_⟩
    rintro ⟨w', hw', hop⟩
    cases hw.unique hw'
    exact decode_of_opcode_halt hop

/-- Settles O9: a step that does not wait has the result of the status it leaves. -/
theorem statusMovesOnlyAsTheStateMachineSays : Obligations.StatusMovesOnlyAsTheStateMachineSays := by
  intro s t hstep
  refine ⟨(step_effect hstep).1, ?_, step_halted_iff hstep⟩
  cases hwaits : s.waitsForInput with
  | true =>
    cases (step_of_waits hwaits).symm.trans hstep
    exact .inl ⟨rfl, rfl, State.stepResult_of_waits hwaits⟩
  | false =>
    have hresult := State.stepResult_of_next hwaits hstep
    cases hstatus : t.status <;> rw [hstatus] at hresult
    case running => exact .inr (.inl ⟨rfl, rfl, hresult⟩)
    case halted => exact .inr (.inr (.inl ⟨rfl, hresult⟩))
    case failed kind => exact .inr (.inr (.inr ⟨kind, rfl, hresult⟩))

@[simp] theorem State.receive_pc (s : State) (c : RegSel) (r : InputResponse) : (s.receive c r).pc = s.pc := by
  cases r <;> rfl

@[simp] theorem State.receive_input (s : State) (c : RegSel) (r : InputResponse) :
    (s.receive c r).input = s.input := by cases r <;> rfl

@[simp] theorem State.receive_output (s : State) (c : RegSel) (r : InputResponse) :
    (s.receive c r).output = s.output := by cases r <;> rfl

/-- Settles O12: of the effects that write the finger, two are Load Program's and one is the held Input. -/
theorem onlyLoadProgramSetsTheFinger : Obligations.OnlyLoadProgramSetsTheFinger := by
  intro i s t hload hwait hexec
  cases exec_eq_next_iff.1 hexec with
  | jump => exact absurd rfl (hload _ _)
  | load => exact absurd rfl (hload _ _)
  | hold hempty => exact absurd ⟨⟨_, rfl⟩, hempty⟩ hwait
  | receive => exact State.receive_pc ..
  | fail | skip | write | amend | halt | alloc | abandon | output => rfl

/-- Settles O39: the wait is a step to the same state; with the answer at the front of the channel the same word takes
it and the machine runs on. -/
theorem inputHoldsUntilAnswered : Obligations.InputHoldsUntilAnswered := by
  intro s hwaits
  refine ⟨step_of_waits hwaits, State.stepResult_of_waits hwaits, fun r => ⟨s.answer_not_waitsForInput r, ?_⟩⟩
  obtain ⟨hrun, hempty, w, c, hw, hdecode⟩ := s.waitsForInput_iff.1 hwaits
  have hqueue : (s.answer r).advance.input = [r] := by simp [hempty]
  have hstep : step (s.answer r) = .next ((s.answer r).advance.takeResponse.receive c r) := by
    rw [step_of_fetches (s := s.answer r) hrun hw, hdecode, (Effect.receive hqueue).exec_eq]
  refine ⟨_, hstep, State.receive_pc .., ?_, ?_⟩
  · rw [State.receive_input, State.takeResponse_input_of_cons hqueue]
  · rw [State.stepResult_of_next (s.answer_not_waitsForInput r) hstep, State.receive_status]
    exact congrArg (some ∘ Status.result) hrun

/-- Settles O47: the snapshot shows the word that a fetch answers, and none exactly past the end of the program. -/
theorem diagShowsTheFingerItsWordAndTheRegisters : Obligations.DiagShowsTheFingerItsWordAndTheRegisters := fun _ =>
  ⟨rfl, fun _ => Memory.fetchRead_ok.symm, WordArray.get?_eq_none, rfl, fun _ => rfl⟩

end Sys2Proof.Machine
end

section
/-! PROOFS. LOAD (10_state.md R35, 70_reset_and_hazards.md R119, R123), and the canonical form of memory (log
entry 8). -/

namespace Sys2Proof.Machine

/-- Settles O13: an image within the limit gives the reset state with the image in the program array and the responses
queued; its memory is canonical because the array of a sequence of words is. -/
theorem loadConstructsTheResetState : Obligations.LoadConstructsTheResetState := by
  refine fun image responses => ⟨fun hlong => if_pos hlong, fun hfits => ?_⟩
  refine ⟨_, if_neg (Nat.not_lt_of_le hfits), State.reset_reg, rfl, rfl, rfl, rfl, rfl, rfl, fun i w => ?_,
    fun id => ?_, ?_⟩
  · rw [Memory.read_eq_ok, ← WordArray.get?_ofWords]
    exact ⟨fun ⟨_, ha, hw⟩ => by cases ha; exact hw, fun hw => ⟨_, Memory.array?_zero _, hw⟩⟩
  · exact Memory.active_eq_false.2 (.inr rfl)
  · exact State.Inv.setProgram resetMeetsTheInvariant (WordArray.wf_ofWords image) hfits rfl rfl

/-- What a memory reads and the lengths of its arrays settle its arrays, where they are canonical. -/
theorem Memory.array?_eq_of_reads {m m' : Memory} (hm : m.wf) (hm' : m'.wf) {id : Nat}
    (hsize : m.size? id = m'.size? id) (hread : ∀ i, m.read id i = m'.read id i) : m.array? id = m'.array? id := by
  simp only [Memory.size?] at hsize
  cases ha : m.array? id with
  | none =>
    rw [ha] at hsize
    exact (Option.map_eq_none_iff.1 hsize.symm).symm
  | some a =>
    rw [ha] at hsize
    obtain ⟨a', ha', hlen⟩ := Option.map_eq_some_iff.1 hsize.symm
    rw [ha']
    refine congrArg some (WordArray.ext_get? (Memory.wf_array hm ha) (Memory.wf_array hm' ha') hlen.symm fun i => ?_)
    refine Option.ext fun v => ?_
    have hiff := Memory.read_eq_ok (m := m) (id := id) (k := i) (v := v)
    rw [hread i, Memory.read_eq_ok] at hiff
    simpa [ha, ha'] using hiff.symm

/-- Settles O46: memories that read alike have the same arrays, and a heap in canonical form is settled by what is
found in it; its key 0, which no identifier selects, is not there. -/
theorem canonicalMemoriesThatReadAlikeAreEqual : Obligations.CanonicalMemoriesThatReadAlikeAreEqual := by
  intro m m' hm hm' hkeys hkeys' hsize hread
  have harray (id : Nat) : m.array? id = m'.array? id := Memory.array?_eq_of_reads hm hm' (hsize id) (hread id)
  have hprogram : m.program = m'.program := Option.some.inj (harray 0)
  have hheap : m.heap = m'.heap := by
    refine rising_ext hm.2.1 hm'.2.1 fun id => ?_
    by_cases h0 : id = 0
    · rw [h0, lookup_eq_none hkeys, lookup_eq_none hkeys']
    · rw [← Memory.array?_of_ne h0, ← Memory.array?_of_ne h0, harray id]
  cases m
  cases m'
  simp only at hprogram hheap
  rw [hprogram, hheap]

end Sys2Proof.Machine
end

section
/-! PROOFS. The byte channels (45_io.md R97, R98): a step takes the front response or none and adds one byte or none,
and what stands behind the front response, or has been sent, changes nothing else of a step. -/

namespace Sys2Proof.Machine

/-! ## What a step does to the channels -/

/-- Input takes the front response where there is one; nothing else touches the channel (45_io.md R98). -/
theorem Effect.input_cases {i : Instr} {s t : State} (h : Effect s i t) :
    ((∀ c, i ≠ .input c) ∧ t.input = s.input) ∨ (∃ c, i = .input c ∧ t.input = s.input.tail) := by
  cases h with
  | fail hcause => exact .inl ⟨fun c hi => (by subst hi; cases hcause), rfl⟩
  | write hwrite => exact .inl ⟨fun c hi => (by subst hi; cases hwrite), rfl⟩
  | hold hempty => exact .inr ⟨_, rfl, by simp [hempty]⟩
  | receive => exact .inr ⟨_, rfl, State.receive_input ..⟩
  | skip | amend | halt | alloc | abandon | output | jump | load => exact .inl ⟨nofun, rfl⟩

/-- Output adds one byte at the end; nothing else touches the channel (45_io.md R97). -/
theorem Effect.output_cases {i : Instr} {s t : State} (h : Effect s i t) :
    t.output = s.output ∨ ∃ c v, i = .output c ∧ t.output = s.output ++ [v] := by
  cases h with
  | output => exact .inr ⟨_, _, rfl, rfl⟩
  | receive => exact .inl (State.receive_output ..)
  | fail | skip | write | amend | halt | alloc | abandon | hold | jump | load => exact .inl rfl

/-- A step leaves the input channel, or it runs opcode 11 and takes the front response. -/
theorem step_input_cases {s t : State} (hstep : step s = .next t) :
    ((∀ w, s.fetches w → bits w 31 28 ≠ 11) ∧ t.input = s.input) ∨
    (∃ w, s.fetches w ∧ bits w 31 28 = 11 ∧ t.input = s.input.tail) := by
  obtain ⟨-, ⟨hpast, rfl⟩ | ⟨w, hw, heffect⟩⟩ := step_effect hstep
  · exact .inl ⟨fun w hw => absurd hw.pc_lt_length (Nat.not_lt_of_le hpast), rfl⟩
  · rcases heffect.input_cases with ⟨hne, hinput⟩ | ⟨c, hdecode, hinput⟩
    · refine .inl ⟨fun w' hw' hop => hne (selector w 0) ?_, hinput⟩
      cases hw.unique hw'
      exact decode_of_opcode_input hop
    · exact .inr ⟨w, hw, opcode_of_decode hdecode, hinput⟩

/-- A step leaves the output, or it runs opcode 10 and adds one byte. -/
theorem step_output_cases {s t : State} (hstep : step s = .next t) :
    t.output = s.output ∨ ∃ w v, s.fetches w ∧ bits w 31 28 = 10 ∧ t.output = s.output ++ [v] := by
  obtain ⟨-, ⟨-, rfl⟩ | ⟨w, hw, heffect⟩⟩ := step_effect hstep
  · exact .inl rfl
  · rcases heffect.output_cases with hsame | ⟨c, v, hdecode, hsent⟩
    · exact .inl hsame
    · exact .inr ⟨w, v, hw, opcode_of_decode hdecode, hsent⟩

/-- No byte once sent is taken back, in any state that is reached (45_io.md R97). -/
theorem Reaches.output_extends {s t : State} (hreach : Reaches s t) : ∃ sent, t.output = s.output ++ sent := by
  induction hreach with
  | start => exact ⟨[], (List.append_nil _).symm⟩
  | answered _ _ _ ih => exact ih
  | more _ hstep ih =>
    obtain ⟨sent, hsent⟩ := ih
    rcases step_output_cases hstep with hsame | ⟨w, v, -, -, hadded⟩
    · exact ⟨sent, hsame.trans hsent⟩
    · exact ⟨sent ++ [v], by rw [hadded, hsent, List.append_assoc]⟩

/-! ## The order of the responses along a run -/

/-- At point `p` of a run from `s` every request has had its response, and the channel holds the end of the responses
there at the start followed by those given (45_io.md R98). -/
def RunPoint.InOrder (env : InputStream) (s : State) (p : RunPoint) : Prop :=
  (env.take p.asked).length = p.asked ∧ ∃ taken, s.input ++ env.take p.asked = taken ++ p.state.input

/-- The environment answers where the step waits and the stream goes on, and otherwise leaves the point. -/
theorem RunPoint.answered_cases (env : InputStream) (p : RunPoint) :
    p.answered env = p ∨ ∃ r, p.state.waitsForInput = true ∧ env.response? p.asked = some r ∧
      p.answered env = { state := p.state.answer r, asked := p.asked + 1 } := by
  cases hwaits : p.state.waitsForInput with
  | false => exact .inl (RunPoint.answered_of_not_waits hwaits)
  | true =>
    cases hr : env.response? p.asked with
    | none => exact .inl (RunPoint.answered_of_blocked ⟨hwaits, hr⟩)
    | some r => exact .inr ⟨r, rfl, rfl, RunPoint.answered_of_response hwaits hr⟩

/-- The run goes on by a step of the answered point, or stays where it is. -/
theorem RunPoint.next_cases (env : InputStream) (p : RunPoint) :
    p.next env = p ∨ ∃ t, step (p.answered env).state = .next t ∧
      p.next env = { state := t, asked := (p.answered env).asked } := by
  cases hstep : step (p.answered env).state with
  | next t => exact .inr ⟨t, rfl, RunPoint.next_of_step hstep⟩
  | fault _ => exact .inl (by rw [RunPoint.next, hstep])
  | refused _ => exact .inl (by rw [RunPoint.next, hstep])

/-- The environment's answer goes behind the responses given before it. -/
theorem RunPoint.inOrder_answered {env : InputStream} {s : State} {p : RunPoint} (h : p.InOrder env s) :
    (p.answered env).InOrder env s := by
  rcases p.answered_cases env with hsame | ⟨r, -, hr, hanswered⟩
  · rwa [hsame]
  · obtain ⟨hlen, taken, htaken⟩ := h
    have htake := InputStream.take_succ hr
    rw [hanswered]
    refine ⟨by simp [htake, hlen], taken, ?_⟩
    rw [htake, ← List.append_assoc, htaken, List.append_assoc, State.answer_input]

/-- A step takes responses off the front alone. -/
theorem RunPoint.inOrder_step {env : InputStream} {s t : State} {p : RunPoint} (h : p.InOrder env s)
    (hstep : step p.state = .next t) : RunPoint.InOrder env s { state := t, asked := p.asked } := by
  obtain ⟨hlen, taken, htaken⟩ := h
  refine ⟨hlen, ?_⟩
  rcases step_input_cases hstep with ⟨-, hsame⟩ | ⟨-, -, -, htail⟩
  · exact ⟨taken, hsame ▸ htaken⟩
  · cases hinput : p.state.input with
    | nil => exact ⟨taken, by simpa [htail, hinput] using htaken⟩
    | cons r rest => exact ⟨taken ++ [r], by simpa [htail, hinput] using htaken⟩

theorem RunPoint.inOrder_next {env : InputStream} {s : State} {p : RunPoint} (h : p.InOrder env s) :
    (p.next env).InOrder env s := by
  rcases p.next_cases env with hsame | ⟨t, hstep, hnext⟩
  · rwa [hsame]
  · exact hnext ▸ RunPoint.inOrder_step (RunPoint.inOrder_answered h) hstep

theorem runAfter_inOrder (env : InputStream) (s : State) (n : Nat) : (runAfter env s n).InOrder env s := by
  induction n with
  | zero => exact ⟨by simp, [], by simp⟩
  | succ n ih => exact RunPoint.inOrder_next ih

/-- Settles O44: one step by its effect on each channel, the run by the order kept at every point, the output by the
states that are reached. -/
theorem channelsKeepTheirOrderAlongARun : Obligations.ChannelsKeepTheirOrderAlongARun := by
  refine ⟨fun s t hstep => ⟨?_, fun w hw hop => ?_, step_output_cases hstep⟩, runAfter_inOrder,
    fun s t => Reaches.output_extends⟩
  · rcases step_input_cases hstep with ⟨-, hsame⟩ | ⟨w, hw, hop, htail⟩
    · exact .inl hsame
    · cases hinput : s.input with
      | nil => exact .inl (by rw [htail, hinput, List.tail_nil])
      | cons r rest => exact .inr ⟨w, r, hw, hop, by rw [htail, hinput, List.tail_cons]⟩
  · rcases step_input_cases hstep with ⟨hne, -⟩ | ⟨-, -, -, htail⟩
    · exact absurd hop (hne w hw)
    · exact htail

/-! ## What has no influence on a step -/

/-- The state with more responses behind those in its channel, and with other bytes as those already sent. -/
def State.withChannels (s : State) (later : List InputResponse) (out : List Byte) : State :=
  { s with input := s.input ++ later, output := out }

theorem State.withChannels_takeResponse {s : State} (h : s.input ≠ []) (later : List InputResponse) (out : List Byte) :
    (s.withChannels later out).takeResponse = s.takeResponse.withChannels later out := by
  simp [State.withChannels, State.takeResponse, List.tail_append_of_ne_nil h]

theorem State.withChannels_receive (s : State) (c : RegSel) (r : InputResponse) (later : List InputResponse)
    (out : List Byte) : (s.withChannels later out).receive c r = (s.receive c r).withChannels later out := by
  cases r <;> rfl

/-- The causes to fail are in the registers, the memory and the allocator. -/
theorem FailureCause.withChannels {i : Instr} {s : State} {k : Failure} (h : FailureCause s i k)
    (later : List InputResponse) (out : List Byte) : FailureCause (s.withChannels later out) i k := by
  cases h <;> constructor <;> assumption

/-- So are the values that registers receive. -/
theorem RegisterWrite.withChannels {i : Instr} {s : State} {a : RegSel} {v : Word} (h : RegisterWrite s i a v)
    (later : List InputResponse) (out : List Byte) : RegisterWrite (s.withChannels later out) i a v := by
  cases h <;> constructor <;> assumption

/-- An instruction has the same effect whatever stands behind the responses already there, unless it waits for one, and
whatever has been sent (00_scope.md R13, 45_io.md R98). -/
theorem Effect.withChannels {i : Instr} {s t : State} (h : Effect s i t) {later : List InputResponse} (out : List Byte)
    (hwait : later = [] ∨ ∀ c, i = .input c → s.input ≠ []) :
    ∃ sent, t.output = s.output ++ sent ∧
      Effect (s.withChannels later out) i (t.withChannels later (out ++ sent)) := by
  have unsent (hout : t.output = s.output) (he : Effect (s.withChannels later out) i (t.withChannels later out)) :
      ∃ sent, t.output = s.output ++ sent ∧ Effect (s.withChannels later out) i (t.withChannels later (out ++ sent)) :=
    ⟨[], by rwa [List.append_nil], by rwa [List.append_nil]⟩
  cases h with
  | fail hcause => exact unsent rfl (.fail (hcause.withChannels later out))
  | skip hzero => exact unsent rfl (.skip hzero)
  | write hwrite => exact unsent rfl (.write (hwrite.withChannels later out))
  | amend hw hlt => exact unsent rfl (.amend hw hlt)
  | halt => exact unsent rfl .halt
  | alloc hid hlive => exact unsent rfl (.alloc hid hlive)
  | abandon hact => exact unsent rfl (.abandon hact)
  | output hle => exact ⟨_, rfl, .output hle⟩
  | hold hempty =>
    rcases hwait with rfl | hne
    · exact unsent rfl (.hold (by simp [State.withChannels, hempty]))
    · exact absurd hempty (hne _ rfl)
  | @receive c r rest hcons =>
    refine unsent (State.receive_output ..) ?_
    rw [← State.withChannels_receive, ← State.withChannels_takeResponse (by simp [hcons])]
    exact .receive (rest := rest ++ later) (by simp [State.withChannels, hcons])
  | jump hzero => exact unsent rfl (.jump hzero)
  | load hact ha => exact unsent rfl (.load hact ha)

theorem step_withChannels {s t : State} (hstep : step s = .next t) {later : List InputResponse} (out : List Byte)
    (hwait : later = [] ∨ s.waitsForInput = false) :
    ∃ sent, t.output = s.output ++ sent ∧
      step (s.withChannels later out) = .next (t.withChannels later (out ++ sent)) := by
  obtain ⟨hrun, ⟨hpast, rfl⟩ | ⟨w, hw, heffect⟩⟩ := step_effect hstep
  · refine ⟨[], (List.append_nil _).symm, ?_⟩
    rw [List.append_nil]
    exact step_of_past (s := s.withChannels later out) hrun hpast
  · have hready : later = [] ∨ ∀ c, decode w = .input c → s.advance.input ≠ [] := by
      refine hwait.imp_right fun hready c hdecode hempty => ?_
      exact Bool.false_ne_true (hready.symm.trans (s.waitsForInput_iff.2 ⟨hrun, hempty, w, c, hw, hdecode⟩))
    obtain ⟨sent, hsent, hother⟩ := heffect.withChannels out hready
    exact ⟨sent, hsent, (step_of_fetches (s := s.withChannels later out) hrun hw).trans hother.exec_eq⟩

/-- Settles O45: the two clauses are the step with other channels, once with no response added and once with the bytes
sent as they are. -/
theorem sentBytesAndLaterResponsesHaveNoInfluence : Obligations.SentBytesAndLaterResponsesHaveNoInfluence := by
  refine fun s t hstep => ⟨fun out => ?_, fun later hready => ?_⟩
  · obtain ⟨sent, hsent, hother⟩ := step_withChannels hstep out (.inl rfl)
    refine ⟨sent, hsent, ?_⟩
    simpa only [State.withChannels, List.append_nil] using hother
  · obtain ⟨sent, hsent, hother⟩ := step_withChannels hstep s.output (.inr hready)
    exact hsent ▸ hother

end Sys2Proof.Machine
end

section
/-! PROOFS. The end of a run (70_reset_and_hazards.md R131, R132): every point of a run has stopped, is blocked, or
completes a step. The first point whose step does not continue settles the end, and no later point has another one; what
was sent and the state there make the one observation. -/

namespace Sys2Proof.Machine

/-! ## One point -/

/-- A running machine has a step. -/
theorem exists_step {s : State} (hrun : s.status = .running) : ∃ t, step s = .next t := by
  cases hw : s.mem.program.get? s.pc.toNat with
  | none => exact ⟨_, step_of_past hrun (WordArray.get?_eq_none.1 hw)⟩
  | some w =>
    obtain ⟨t, heffect⟩ := exists_effect (decode w) s.advance
    exact ⟨t, (step_of_fetches hrun (Memory.fetchRead_ok.2 hw)).trans heffect.exec_eq⟩

/-- What becomes of a point of a run: its machine has stopped, its request has no response, or its step completes with
the result of the status it leaves. -/
inductive RunPoint.Progress (env : InputStream) (p : RunPoint) : Prop where
  | stopped (hstatus : p.state.status ≠ .running) (hresult : p.result env = none) (hnext : p.next env = p)
  | blocked (hrun : p.state.status = .running) (hblocked : p.isBlocked env) (hresult : p.result env = none)
      (hnext : p.next env = p)
  | stepped (hrun : p.state.status = .running) (hready : ¬ p.isBlocked env)
      (hresult : p.result env = some (p.next env).state.status.result)

theorem RunPoint.progress_of_stopped (env : InputStream) {p : RunPoint} (hstatus : p.state.status ≠ .running) :
    p.result env = none ∧ p.next env = p := by
  have hstay := RunPoint.answered_of_not_waits (env := env) (State.not_waitsForInput_of_status hstatus)
  obtain ⟨hfault, hnone⟩ := terminalStatusHasNoStep p.state hstatus
  refine ⟨?_, ?_⟩
  · rw [RunPoint.result, hstay, hnone]
  · rw [RunPoint.next, hstay, hfault]

theorem RunPoint.progress_of_blocked {env : InputStream} {p : RunPoint} (hblocked : p.isBlocked env) :
    p.result env = none ∧ p.next env = p := by
  have hstay := RunPoint.answered_of_blocked hblocked
  refine ⟨?_, ?_⟩
  · rw [RunPoint.result, hstay, State.stepResult_of_waits hblocked.1]
  · rw [RunPoint.next_of_step (hstay.symm ▸ step_of_waits hblocked.1), hstay]

theorem RunPoint.progress (env : InputStream) (p : RunPoint) : p.Progress env := by
  by_cases hrun : p.state.status = .running
  · by_cases hblocked : p.isBlocked env
    · obtain ⟨hresult, hnext⟩ := RunPoint.progress_of_blocked hblocked
      exact .blocked hrun hblocked hresult hnext
    · have hready := (p.blocked_or_answered env).resolve_left hblocked
      obtain ⟨t, hstep⟩ := exists_step ((p.answered_status env).trans hrun)
      exact .stepped hrun hblocked
        (by rw [RunPoint.result, State.stepResult_of_next hready hstep, RunPoint.next_of_step hstep])
  · obtain ⟨hresult, hnext⟩ := RunPoint.progress_of_stopped env hrun
    exact .stopped hrun hresult hnext

/-! ## The end that a point settles -/

/-- The end of a run one of whose steps returned this result; none where the run goes on. -/
def StepResult.ending : StepResult → Option EndKind
  | .continue => none
  | .halt => some .halt
  | .fail kind => some (if kind.isModelFault then .modelFault kind else .fail kind)

/-- The end that a point of a run settles: by the result of its step, or because it waits for ever. -/
def RunPoint.ending (env : InputStream) (p : RunPoint) : Option EndKind :=
  match p.result env with
  | some r => r.ending
  | none => if p.state.status = .running then some .blocked else none

theorem RunPoint.ending_of_result {env : InputStream} {p : RunPoint} {r : StepResult} (h : p.result env = some r) :
    p.ending env = r.ending := by rw [RunPoint.ending, h]

theorem RunPoint.ending_of_stopped {env : InputStream} {p : RunPoint} (hstatus : p.state.status ≠ .running) :
    p.ending env = none := by
  rw [RunPoint.ending, (RunPoint.progress_of_stopped env hstatus).1]
  exact if_neg hstatus

theorem RunPoint.ending_of_blocked {env : InputStream} {p : RunPoint} (hblocked : p.isBlocked env) :
    p.ending env = some .blocked := by
  rw [RunPoint.ending, (RunPoint.progress_of_blocked hblocked).1]
  exact if_pos (p.state.waitsForInput_iff.1 hblocked.1).1

/-! ## The end of a run -/

/-- Where a run has stopped it stays. -/
theorem runAfter_of_stopped {env : InputStream} {s : State} {n m : Nat}
    (hstatus : (runAfter env s n).state.status ≠ .running) (hle : n ≤ m) : runAfter env s m = runAfter env s n := by
  obtain ⟨k, rfl⟩ := Nat.exists_eq_add_of_le hle
  exact runAfter_add_of_next_self (RunPoint.progress_of_stopped env hstatus).2 k

/-- An end that some point settles is an end of the run. -/
theorem endsIn_of_ending {env : InputStream} {s : State} {n : Nat} {kind : EndKind}
    (h : (runAfter env s n).ending env = some kind) : EndsIn env s kind := by
  cases (runAfter env s n).progress env with
  | stopped hstatus => cases (RunPoint.ending_of_stopped hstatus).symm.trans h
  | blocked _ hblocked =>
    cases (RunPoint.ending_of_blocked hblocked).symm.trans h
    exact ⟨n, hblocked⟩
  | stepped _ _ hresult =>
    rw [RunPoint.ending_of_result hresult] at h
    rw [← runAfter_succ] at h hresult
    cases hstatus : (runAfter env s (n + 1)).state.status with
    | running => rw [hstatus] at h; cases h
    | halted =>
      rw [hstatus] at h hresult
      cases h
      exact ⟨n, hresult, hstatus⟩
    | failed k =>
      rw [hstatus] at h hresult
      cases hk : k.isModelFault with
      | true =>
        simp only [Status.result, StepResult.ending, hk, if_true, Option.some.injEq] at h
        exact h ▸ ⟨hk, n, hresult, hstatus⟩
      | false =>
        simp only [Status.result, StepResult.ending, hk, Bool.false_eq_true, if_false, Option.some.injEq] at h
        exact h ▸ ⟨hk, n, hresult, hstatus⟩

/-- Every end but divergence is settled by some point. -/
theorem EndsIn.exists_ending {env : InputStream} {s : State} {kind : EndKind} (h : EndsIn env s kind)
    (hne : kind ≠ .divergence) : ∃ n, (runAfter env s n).ending env = some kind := by
  cases kind with
  | halt =>
    obtain ⟨n, hresult, -⟩ := h
    exact ⟨n, RunPoint.ending_of_result hresult⟩
  | fail k =>
    obtain ⟨hk, n, hresult, -⟩ := h
    exact ⟨n, (RunPoint.ending_of_result hresult).trans (by simp [StepResult.ending, hk])⟩
  | modelFault k =>
    obtain ⟨hk, n, hresult, -⟩ := h
    exact ⟨n, (RunPoint.ending_of_result hresult).trans (by simp [StepResult.ending, hk])⟩
  | blocked =>
    obtain ⟨n, hblocked⟩ := h
    exact ⟨n, RunPoint.ending_of_blocked hblocked⟩
  | divergence => exact absurd rfl hne

/-- A run that diverges has no point that settles an end. -/
theorem EndsIn.ending_eq_none {env : InputStream} {s : State} (h : EndsIn env s .divergence) (n : Nat) :
    (runAfter env s n).ending env = none := RunPoint.ending_of_result (h n)

/-- A status settles no end exactly where it is running. -/
theorem Status.ending_eq_none {st : Status} : st.result.ending = none ↔ st = .running := by
  cases st with
  | running => exact iff_of_true rfl rfl
  | halted => exact iff_of_false nofun nofun
  | failed k => exact iff_of_false nofun nofun

/-- A running point that settles no end completes a step that continues. -/
theorem RunPoint.continues_of_no_ending {env : InputStream} {p : RunPoint} (hrun : p.state.status = .running)
    (hnone : p.ending env = none) : p.result env = some .continue ∧ (p.next env).state.status = .running := by
  cases p.progress env with
  | stopped hstatus => exact absurd hrun hstatus
  | blocked _ hblocked => cases (RunPoint.ending_of_blocked hblocked).symm.trans hnone
  | stepped _ _ hresult =>
    have hnext : (p.next env).state.status = .running :=
      Status.ending_eq_none.1 ((RunPoint.ending_of_result hresult).symm.trans hnone)
    exact ⟨hresult.trans (congrArg (some ∘ Status.result) hnext), hnext⟩

/-- A run none of whose points settles an end diverges. -/
theorem diverges_of_no_ending {env : InputStream} {s : State} (hrun : s.status = .running)
    (h : ∀ n, (runAfter env s n).ending env = none) : EndsIn env s .divergence := by
  have hrunning (n : Nat) : (runAfter env s n).state.status = .running := by
    induction n with
    | zero => exact hrun
    | succ n ih => exact (RunPoint.continues_of_no_ending ih (h n)).2
  exact fun n => (RunPoint.continues_of_no_ending (hrunning n) (h n)).1

/-- No later point of a run settles another end: a blocked run stays at its point, and a run that has halted or failed
stays at a point that settles none. -/
theorem ending_unique_of_le {env : InputStream} {s : State} {n m : Nat} {kind kind' : EndKind} (hle : n ≤ m)
    (h : (runAfter env s n).ending env = some kind) (h' : (runAfter env s m).ending env = some kind') :
    kind = kind' := by
  cases (runAfter env s n).progress env with
  | stopped hstatus => cases (RunPoint.ending_of_stopped hstatus).symm.trans h
  | blocked _ _ _ hnext =>
    obtain ⟨k, rfl⟩ := Nat.exists_eq_add_of_le hle
    rw [runAfter_add_of_next_self hnext] at h'
    exact Option.some.inj (h.symm.trans h')
  | stepped _ _ hresult =>
    rcases Nat.eq_or_lt_of_le hle with rfl | hlt
    · exact Option.some.inj (h.symm.trans h')
    · have hstopped : (runAfter env s (n + 1)).state.status ≠ .running := by
        intro hrun
        rw [RunPoint.ending_of_result hresult, ← runAfter_succ, hrun] at h
        cases h
      rw [runAfter_of_stopped hstopped hlt, RunPoint.ending_of_stopped hstopped] at h'
      cases h'

theorem ending_unique {env : InputStream} {s : State} {n m : Nat} {kind kind' : EndKind}
    (h : (runAfter env s n).ending env = some kind) (h' : (runAfter env s m).ending env = some kind') :
    kind = kind' := by
  rcases Nat.le_total n m with hle | hle
  · exact ending_unique_of_le hle h h'
  · exact (ending_unique_of_le hle h' h).symm

/-- Two ends of a run are one. -/
theorem EndsIn.unique {env : InputStream} {s : State} {kind kind' : EndKind} (h : EndsIn env s kind)
    (h' : EndsIn env s kind') : kind = kind' := by
  by_cases hdiv : kind = .divergence
  · by_cases hdiv' : kind' = .divergence
    · rw [hdiv, hdiv']
    · obtain ⟨n, hn⟩ := h'.exists_ending hdiv'
      cases ((hdiv ▸ h).ending_eq_none n).symm.trans hn
  · obtain ⟨n, hn⟩ := h.exists_ending hdiv
    by_cases hdiv' : kind' = .divergence
    · cases ((hdiv' ▸ h').ending_eq_none n).symm.trans hn
    · obtain ⟨m, hm⟩ := h'.exists_ending hdiv'
      exact ending_unique hn hm

/-- A run ends in some way: a point settles its end, or it diverges. -/
theorem exists_endsIn (env : InputStream) {s : State} (hrun : s.status = .running) : ∃ kind, EndsIn env s kind := by
  by_cases h : ∀ n, (runAfter env s n).ending env = none
  · exact ⟨.divergence, diverges_of_no_ending hrun h⟩
  · obtain ⟨n, hn⟩ := not_forall.1 h
    obtain ⟨kind, hkind⟩ := Option.ne_none_iff_exists'.1 hn
    exact ⟨kind, endsIn_of_ending hkind⟩

/-- Settles O48: a run one of whose points settles an end has that end, any other one diverges; and it has no two. -/
theorem everyRunEndsInExactlyOneWay : Obligations.EveryRunEndsInExactlyOneWay := fun env _ hrun =>
  existsUnique_of_exists_of_unique (exists_endsIn env hrun) fun _ _ => EndsIn.unique

/-! ## The observation of a run -/

/-- The next point of a run is reached from this one. -/
theorem RunPoint.reaches_next (env : InputStream) (p : RunPoint) : Reaches p.state (p.next env).state := by
  rcases p.next_cases env with hsame | ⟨t, hstep, hnext⟩
  · rw [hsame]
    exact .start
  · rw [hnext]
    exact .more Reaches.start.answeredPoint hstep

/-- A byte sent at one point of a run stands at its place at every later point. -/
theorem sentByte_of_le {env : InputStream} {s : State} {n m i : Nat} {v : Byte} (hle : n ≤ m)
    (h : (runAfter env s n).state.output[i]? = some v) : (runAfter env s m).state.output[i]? = some v := by
  induction m, hle using Nat.le_induction with
  | base => exact h
  | succ m _ ih =>
    obtain ⟨sent, hsent⟩ := ((runAfter env s m).reaches_next env).output_extends
    rw [runAfter_succ, hsent]
    exact List.getElem?_append_left (List.getElem?_eq_some_iff.1 ih).1 ▸ ih

/-- Any two points of a run that have sent a byte of some place have sent the same one. -/
theorem sentByte_unique {env : InputStream} {s : State} {n m i : Nat} {v v' : Byte}
    (h : (runAfter env s n).state.output[i]? = some v) (h' : (runAfter env s m).state.output[i]? = some v') : v = v' :=
  Option.some.inj <|
    (sentByte_of_le (Nat.le_max_left n m) h).symm.trans (sentByte_of_le (Nat.le_max_right n m) h')

/-- The bytes of a run by their place in the order of sending. -/
theorem exists_sentBytes (env : InputStream) (s : State) :
    ∃ bytes : Nat → Option Byte, ∀ i v, bytes i = some v ↔ ∃ n, (runAfter env s n).state.output[i]? = some v := by
  have hplace (i : Nat) : ∃ b : Option Byte, ∀ v, b = some v ↔ ∃ n, (runAfter env s n).state.output[i]? = some v := by
    by_cases hsent : ∃ v n, (runAfter env s n).state.output[i]? = some v
    · obtain ⟨v, n, hn⟩ := hsent
      refine ⟨some v, fun v' => ⟨fun h => ⟨n, h ▸ hn⟩, fun ⟨m, hm⟩ => congrArg some (sentByte_unique hn hm)⟩⟩
    · exact ⟨none, fun v => iff_of_false nofun fun h => hsent ⟨v, h⟩⟩
  exact Classical.skolem.1 hplace

/-- Terminal states of a run are one. -/
theorem runAfter_terminal_unique {env : InputStream} {s : State} {n m : Nat}
    (hn : (runAfter env s n).state.status ≠ .running) (hm : (runAfter env s m).state.status ≠ .running) :
    runAfter env s n = runAfter env s m := by
  rcases Nat.le_total n m with hle | hle
  · exact (runAfter_of_stopped hn hle).symm
  · exact runAfter_of_stopped hm hle

/-- A run that ends in Halt or Fail comes to a terminal state. -/
theorem Returned.exists_terminal {env : InputStream} {s : State} {r : StepResult} {st : Status}
    (h : Returned env s r st) (hne : st ≠ .running) : ∃ n, (runAfter env s n).state.status ≠ .running := by
  obtain ⟨n, -, hstatus⟩ := h
  exact ⟨n + 1, hstatus ▸ hne⟩

theorem EndsIn.exists_final {env : InputStream} {s : State} {kind : EndKind} (h : EndsIn env s kind) :
    ∃ final, FinalAt env s final kind := by
  cases kind with
  | halt =>
    obtain ⟨n, hn⟩ := Returned.exists_terminal h nofun
    exact ⟨_, n, hn, rfl⟩
  | fail k =>
    obtain ⟨n, hn⟩ := Returned.exists_terminal h.2 nofun
    exact ⟨_, n, hn, rfl⟩
  | modelFault _ | blocked | divergence => exact ⟨none, rfl⟩

theorem finalState_unique {env : InputStream} {s : State} {f f' : Option FinalState}
    (h : ∃ n, (runAfter env s n).state.status ≠ .running ∧ f = some (runAfter env s n).state.final)
    (h' : ∃ n, (runAfter env s n).state.status ≠ .running ∧ f' = some (runAfter env s n).state.final) : f = f' := by
  obtain ⟨n, hn, rfl⟩ := h
  obtain ⟨m, hm, rfl⟩ := h'
  rw [runAfter_terminal_unique hn hm]

theorem FinalAt.unique {env : InputStream} {s : State} {kind : EndKind} {f f' : Option FinalState}
    (h : FinalAt env s f kind) (h' : FinalAt env s f' kind) : f = f' := by
  cases kind with
  | halt | fail k => exact finalState_unique h h'
  | modelFault _ | blocked | divergence => exact h.trans h'.symm

theorem Observes.unique {env : InputStream} {s : State} {o o' : Observation} (h : Observes env s o)
    (h' : Observes env s o') : o = o' := by
  obtain ⟨kind, output, final⟩ := o
  obtain ⟨kind', output', final'⟩ := o'
  obtain ⟨hkind, houtput, hfinal⟩ := h
  obtain ⟨hkind', houtput', hfinal'⟩ := h'
  cases hkind.unique hkind'
  cases hfinal.unique hfinal'
  have hsame : output = output' := funext fun i => Option.ext fun v => (houtput i v).trans (houtput' i v).symm
  rw [hsame]

/-- Settles O49: the end is the one of O48, the bytes are those sent by any point, the final state is that of the one
terminal state; the premises leave the ends that O49 names. -/
theorem everyRunHasExactlyOneObservation : Obligations.EveryRunHasExactlyOneObservation := by
  intro env s hrun
  refine ⟨existsUnique_of_exists_of_unique ?_ fun _ _ => Observes.unique, fun o hobserves hpremises => ?_⟩
  · obtain ⟨kind, hkind⟩ := exists_endsIn env hrun
    obtain ⟨bytes, hbytes⟩ := exists_sentBytes env s
    obtain ⟨final, hfinal⟩ := hkind.exists_final
    exact ⟨⟨kind, bytes, final⟩, hkind, hbytes, hfinal⟩
  · obtain ⟨kind, output, final⟩ := o
    obtain ⟨hkind, -, hfinal⟩ := hobserves
    obtain ⟨hnofault, hanswered⟩ := hpremises
    cases kind with
    | halt =>
      obtain ⟨n, -, hsome⟩ := hfinal
      exact .inr ⟨.inl rfl, _, hsome⟩
    | fail k =>
      obtain ⟨n, -, hsome⟩ := hfinal
      exact .inr ⟨.inr ⟨k, rfl⟩, _, hsome⟩
    | modelFault k => exact absurd hkind (hnofault k)
    | blocked => exact absurd hkind hanswered
    | divergence => exact .inl ⟨rfl, hfinal⟩

end Sys2Proof.Machine
end

section
/-! PROOFS. Responses queued at the load and responses given on request make the same run (45_io.md R98, log entry 2):
point by point, the machine with the queue stands where the run with the stream stands, with the responses that the run
has not asked for behind those in its channel, and those have no influence on a step. -/

namespace Sys2Proof.Machine

/-- With no environment no request is answered. -/
@[simp] theorem RunPoint.answered_finite_nil (p : RunPoint) : p.answered (.finite []) = p := by
  rcases p.answered_cases (.finite []) with hsame | ⟨r, -, hr, -⟩
  · exact hsame
  · cases hr

/-- An answer comes to an empty channel, and the step that asked for it takes it: the channel is empty between the steps
of a run that starts with it empty. -/
theorem RunPoint.next_input {env : InputStream} {p : RunPoint} (hempty : p.state.input = []) :
    (p.next env).state.input = [] := by
  rcases p.next_cases env with hsame | ⟨t, hstep, hnext⟩
  · rw [hsame, hempty]
  rw [hnext]
  rcases p.answered_cases env with hsame | ⟨r, hwaits, -, hanswered⟩
  · rw [hsame] at hstep
    rcases step_input_cases hstep with ⟨-, hinput⟩ | ⟨-, -, -, hinput⟩ <;> simp [hinput, hempty]
  · rw [hanswered] at hstep
    rcases step_input_cases hstep with ⟨hne, -⟩ | ⟨-, -, -, hinput⟩
    · obtain ⟨-, -, w, c, hw, hdecode⟩ := p.state.waitsForInput_iff.1 hwaits
      exact absurd (opcode_of_decode hdecode) (hne w hw)
    · simp [hinput, hempty]

theorem runAfter_input {s : State} (env : InputStream) (hempty : s.input = []) (n : Nat) :
    (runAfter env s n).state.input = [] := by
  induction n with
  | zero => exact hempty
  | succ n ih => exact RunPoint.next_input ih

/-- A run never takes back what it has asked for. -/
theorem RunPoint.asked_le_next (env : InputStream) (p : RunPoint) : p.asked ≤ (p.next env).asked := by
  have hanswered : p.asked ≤ (p.answered env).asked := by
    rcases p.answered_cases env with hsame | ⟨r, -, -, hanswered⟩
    · rw [hsame]
    · rw [hanswered]
      exact Nat.le_succ _
  rcases p.next_cases env with hsame | ⟨t, -, hnext⟩
  · rw [hsame]
  · rwa [hnext]

/-- The state of a point with what the run has not asked for, of the first `m` responses, in its channel. -/
def RunPoint.queued (env : InputStream) (m : Nat) (p : RunPoint) : State :=
  { p.state with input := (env.take m).drop p.asked }

/-- The next response of the queue is the one that the environment gives on request. -/
theorem InputStream.drop_take_of_response {env : InputStream} {m k : Nat} {r : InputResponse} (hlt : k < m)
    (h : env.response? k = some r) : (env.take m).drop k = r :: (env.take m).drop (k + 1) := by
  have hk : (env.take m)[k]? = some r := by rw [InputStream.getElem?_take, if_pos hlt, h]
  obtain ⟨hlen, rfl⟩ := List.getElem?_eq_some_iff.1 hk
  exact List.drop_eq_getElem_cons hlen

/-- Where the stream is used up, so is the queue. -/
theorem InputStream.drop_take_of_no_response {env : InputStream} {k : Nat} (m : Nat) (h : env.response? k = none) :
    (env.take m).drop k = [] := by
  refine List.drop_eq_nil_of_le (List.getElem?_eq_none_iff.1 ?_)
  rw [InputStream.getElem?_take, h, ite_self]

/-- The queue holds the answer to the coming request, if there is one, and behind it what is not asked for. -/
theorem RunPoint.queued_eq_withChannels {env : InputStream} {m : Nat} {p : RunPoint} (hempty : p.state.input = [])
    (hle : (p.answered env).asked ≤ m) :
    p.queued env m = (p.answered env).state.withChannels ((env.take m).drop (p.answered env).asked)
      (p.answered env).state.output := by
  rcases p.answered_cases env with hsame | ⟨r, -, hr, hanswered⟩
  · rw [hsame, RunPoint.queued, State.withChannels, hempty, List.nil_append]
  · rw [hanswered] at hle ⊢
    simp [RunPoint.queued, State.withChannels, State.answer, hempty, InputStream.drop_take_of_response hle hr]

/-- One step of the machine with the queue is one step of the run with the stream. -/
theorem RunPoint.next_queued {env : InputStream} {m : Nat} {p q : RunPoint} (hempty : p.state.input = [])
    (hle : (p.next env).asked ≤ m) (hq : q.state = p.queued env m) :
    (q.next (.finite [])).state = (p.next env).queued env m := by
  cases p.progress env with
  | stopped hstatus _ hnext =>
    have hstopped : q.state.status ≠ .running := by rwa [hq]
    rw [(RunPoint.progress_of_stopped _ hstopped).2, hnext, hq]
  | blocked _ hblocked _ hnext =>
    have hqueue : q.state = p.state := by
      rw [hq, RunPoint.queued, InputStream.drop_take_of_no_response m hblocked.2, ← hempty]
    have hqblocked : q.isBlocked (.finite []) := ⟨hqueue ▸ hblocked.1, rfl⟩
    rw [(RunPoint.progress_of_blocked hqblocked).2, hnext, hq]
  | stepped hrun hready _ =>
    obtain ⟨t, hstep⟩ := exists_step ((p.answered_status env).trans hrun)
    have hnext := RunPoint.next_of_step hstep
    have htempty : t.input = [] := by simpa [hnext] using RunPoint.next_input (env := env) hempty
    rw [hnext] at hle ⊢
    obtain ⟨sent, hsent, hother⟩ := step_withChannels hstep (p.answered env).state.output
      (.inr ((p.blocked_or_answered env).resolve_left hready))
    rw [← RunPoint.queued_eq_withChannels hempty hle, ← hq, ← RunPoint.answered_finite_nil q] at hother
    rw [RunPoint.next_of_step hother, ← hsent, State.withChannels, htempty, List.nil_append]
    rfl

/-- Settles O50, by induction on the number of steps: the queue starts with the first `m` responses, and one step keeps
what the two machines have in common. -/
theorem queuedResponsesGiveTheRunOfTheStream : Obligations.QueuedResponsesGiveTheRunOfTheStream := by
  intro env s n m hempty hasked
  show (runAfter (.finite []) { s with input := env.take m } n).state = (runAfter env s n).queued env m
  induction n with
  | zero => rfl
  | succ n ih =>
    have hle := RunPoint.asked_le_next env (runAfter env s n)
    exact RunPoint.next_queued (runAfter_input env hempty n) hasked (ih (Nat.le_trans hle hasked))

end Sys2Proof.Machine
end
